-- ==== Sys2Proof/Word.lean ====
section
/-! DEFINITION. The widths of the engine's values (00_scope.md R5, R8) and the two closed choices that a 1-bit
operand selects (30_encoding.md R37, names of R44). -/

namespace Sys2Proof

/-- A 16-bit word on the command port (R34). -/
abbrev Word := BitVec 16

/-- A 40-bit word on the response port (R42). -/
abbrev ResponseWord := BitVec 40

/-- A value of the checksum accumulator, 30 bits (R5 `CHK_BITS`, R8 "Residue"). -/
abbrev Residue := BitVec 30

/-- A Symbol: an integer in 0 to 31 (R8). -/
abbrev Symbol := BitVec 5

/-- A byte or a character code: an integer in 0 to 255 (R8). -/
abbrev Byte := BitVec 8

/-- The regrouper's direction, the value of the 1-bit register `MODE` (R13): 0 is 8-to-5, 1 is 5-to-8. -/
inductive Direction where
  | eightToFive
  | fiveToEight
  deriving DecidableEq, Repr

/-- The padding policy, the 1-bit operand of `RG.FLUSH` (R65): 0 is D0's `pad = false`, 1 is D0's `pad = true`. -/
inductive Padding where
  | strict
  | pad
  deriving DecidableEq, Repr

end Sys2Proof
end

