-- ==== Sys2Proof/Syntax.lean ====
section
/-! DEFINITION. The ten commands of the engine (30_encoding.md R36, spec/opcode_table.json), operands as R41's
decoder hands them on: an 8-bit operand whole, a 1-bit operand as the choice it selects. -/

namespace Sys2Proof

/-- A decoded command (R36, R41). -/
inductive Instr where
  /-- `CK.INIT` (R50): start a checksum session. -/
  | ckInit
  /-- `CK.SYM v` (R51): absorb one Symbol; `v` is all 8 bits of `IMM`, range-checked on execution. -/
  | ckSym (v : Byte)
  /-- `CK.HI c` (R52): absorb the high 3 bits of a character code. -/
  | ckHi (c : Byte)
  /-- `CK.LO c` (R53): absorb the low 5 bits of a character code. -/
  | ckLo (c : Byte)
  /-- `CK.VFY` (R54): answer whether `CHK = 1`. -/
  | ckVfy
  /-- `CK.FIN` (R55): answer the six checksum Symbols. -/
  | ckFin
  /-- `CK.RD` (R56): answer `CHK`. -/
  | ckRd
  /-- `RG.INIT d` (R62): start a conversion session in direction `d`. -/
  | rgInit (d : Direction)
  /-- `RG.PUSH v` (R63): push one input value; `v` is all 8 bits of `IMM`, range-checked on execution. -/
  | rgPush (v : Byte)
  /-- `RG.FLUSH p` (R65): apply the padding policy to the leftover bits. -/
  | rgFlush (p : Padding)
  deriving DecidableEq, Repr

end Sys2Proof
end

