-- ==== Sys2Proof/WellFormed.lean ====
section
/-! DEFINITION. Which triples of command-word fields are a command at all (30_encoding.md R34, R38, R39). A term of
`Instr` cannot be ill-formed (its operands have exactly the values the encoding admits, so R41's decoder is onto),
so the checks stand on the fields of a word: one check for each of the three ways R39 gives for a word to be
illegal. Decode.lean's decoder is written apart from these checks, from R41; Laws/Decode.lean proves that the two
agree. -/

namespace Sys2Proof

/-- The three fields of a command word (R34). -/
structure Fields where
  /-- `OP = W[15:12]`, the unit select. -/
  op : BitVec 4
  /-- `SUB = W[11:8]`, the operation within the unit. -/
  sub : BitVec 4
  /-- `IMM = W[7:0]`, the operand. -/
  imm : BitVec 8
  deriving DecidableEq, Repr

/-- R34: `OP` selects a unit, 1 the checksum engine and 2 the regrouper. -/
def Fields.unitAssigned (f : Fields) : Bool := f.op == 1#4 || f.op == 2#4

/-- R39: in an assigned unit, `SUB` is one of its operations, 0 to 6 of the checksum engine, 0 to 2 of the
regrouper. -/
def Fields.operationAssigned (f : Fields) : Bool :=
  if f.op = 1#4 then decide (f.sub.toNat ≤ 6) else if f.op = 2#4 then decide (f.sub.toNat ≤ 2) else true

/-- R38: the must-be-zero bits of `IMM` are zero, all of them for `CK.INIT`, `CK.VFY`, `CK.FIN`, `CK.RD`, and
`IMM[7:1]` for `RG.INIT` and `RG.FLUSH`. -/
def Fields.mustBeZeroHeld (f : Fields) : Bool :=
  if f.op = 1#4 ∧ (f.sub = 0#4 ∨ f.sub = 4#4 ∨ f.sub = 5#4 ∨ f.sub = 6#4) then f.imm == 0#8
  else if f.op = 2#4 ∧ (f.sub = 0#4 ∨ f.sub = 2#4) then f.imm.extractLsb' 1 7 == 0#7
  else true

/-- The fields of a legal command word (R39). -/
def Fields.wellFormed (f : Fields) : Bool :=
  f.unitAssigned && f.operationAssigned && f.mustBeZeroHeld

end Sys2Proof
end

