-- ==== Sys2Proof/Decode.lean ====
section
/-! DEFINITION. The decoder (30_encoding.md R35, R41), the encoder (R36, R41) and the match/mask table (R36). The
decoder is total on 16-bit words: a word that is no command is rejected by the name of what is wrong with it
(R39). -/

namespace Sys2Proof

/-- Why a word is illegal: the three ways of R39. -/
inductive Illegal where
  /-- `OP` is neither 1 nor 2. -/
  | unassignedUnit
  /-- `OP` is 1 with `SUB` in 7 to 15, or 2 with `SUB` in 3 to 15. -/
  | unassignedOperation
  /-- A must-be-zero bit of `IMM` is 1 (R38). -/
  | mustBeZero
  deriving DecidableEq, Repr

/-- What a word decodes to (R41): a command, or `ILLEGAL`. -/
inductive Decoded where
  | command (i : Instr)
  | illegal (why : Illegal)
  deriving DecidableEq, Repr

/-- The command of a decoded word, if it is one. -/
def Decoded.instr? : Decoded → Option Instr
  | .command i => some i
  | .illegal _ => none

/-- R35: `OP = W[15:12]`, `SUB = W[11:8]`, `IMM = W[7:0]`. -/
def fieldsOf (w : Word) : Fields :=
  { op := w.extractLsb' 12 4, sub := w.extractLsb' 8 4, imm := w.extractLsb' 0 8 }

/-- R13, R37: the direction a bit selects. -/
def Direction.ofBit (b : Bool) : Direction := if b then .fiveToEight else .eightToFive

/-- R13: the value of `MODE` that is this direction. -/
def Direction.bit : Direction → Bool
  | .eightToFive => false
  | .fiveToEight => true

/-- R65: the padding policy a bit selects. -/
def Padding.ofBit (b : Bool) : Padding := if b then .pad else .strict

/-- R65: the bit that selects this padding policy. -/
def Padding.bit : Padding → Bool
  | .strict => false
  | .pad => true

/-- R38: a command with no operand, legal only when all of `IMM` is zero. -/
def decodeBare (imm : BitVec 8) (i : Instr) : Decoded :=
  if imm = 0#8 then .command i else .illegal .mustBeZero

/-- R38: a command with a 1-bit operand `IMM[0]`, legal only when `IMM[7:1]` is zero. -/
def decodeBit (imm : BitVec 8) (mk : Bool → Instr) : Decoded :=
  if imm.extractLsb' 1 7 = 0#7 then .command (mk (imm.getLsbD 0)) else .illegal .mustBeZero

/-- R41, the case `OP = 1`. -/
def decodeChecksum (sub : BitVec 4) (imm : BitVec 8) : Decoded :=
  if sub = 0#4 then decodeBare imm .ckInit
  else if sub = 1#4 then .command (.ckSym imm)
  else if sub = 2#4 then .command (.ckHi imm)
  else if sub = 3#4 then .command (.ckLo imm)
  else if sub = 4#4 then decodeBare imm .ckVfy
  else if sub = 5#4 then decodeBare imm .ckFin
  else if sub = 6#4 then decodeBare imm .ckRd
  else .illegal .unassignedOperation

/-- R41, the case `OP = 2`. -/
def decodeRegrouper (sub : BitVec 4) (imm : BitVec 8) : Decoded :=
  if sub = 0#4 then decodeBit imm (fun b => .rgInit (Direction.ofBit b))
  else if sub = 1#4 then .command (.rgPush imm)
  else if sub = 2#4 then decodeBit imm (fun b => .rgFlush (Padding.ofBit b))
  else .illegal .unassignedOperation

/-- R41: decoding from a word's fields. -/
def decodeFields (f : Fields) : Decoded :=
  if f.op = 1#4 then decodeChecksum f.sub f.imm
  else if f.op = 2#4 then decodeRegrouper f.sub f.imm
  else .illegal .unassignedUnit

/-- R41: the decoder, total on 16-bit words. -/
def decode (w : Word) : Decoded := decodeFields (fieldsOf w)

/-- R36: a row of the opcode map; `W` is this row's command iff `W & mask = match`. -/
structure OpcodeRow where
  matchBits : Word
  mask : Word
  deriving DecidableEq, Repr

/-- R36: the row whose words a command has. -/
def Instr.row : Instr → OpcodeRow
  | .ckInit => ⟨0x1000#16, 0xFFFF#16⟩
  | .ckSym _ => ⟨0x1100#16, 0xFF00#16⟩
  | .ckHi _ => ⟨0x1200#16, 0xFF00#16⟩
  | .ckLo _ => ⟨0x1300#16, 0xFF00#16⟩
  | .ckVfy => ⟨0x1400#16, 0xFFFF#16⟩
  | .ckFin => ⟨0x1500#16, 0xFFFF#16⟩
  | .ckRd => ⟨0x1600#16, 0xFFFF#16⟩
  | .rgInit _ => ⟨0x2000#16, 0xFFFE#16⟩
  | .rgPush _ => ⟨0x2100#16, 0xFF00#16⟩
  | .rgFlush _ => ⟨0x2200#16, 0xFFFE#16⟩

/-- R37: a command's operand as it stands in `IMM`; zero where `IMM` must be zero. -/
def Instr.imm : Instr → BitVec 8
  | .ckSym v => v
  | .ckHi c => c
  | .ckLo c => c
  | .rgInit d => if d.bit then 1#8 else 0#8
  | .rgPush v => v
  | .rgFlush p => if p.bit then 1#8 else 0#8
  | .ckInit => 0#8
  | .ckVfy => 0#8
  | .ckFin => 0#8
  | .ckRd => 0#8

/-- R41: the word of a command, its row's `match` with the operand put in. -/
def encode (i : Instr) : Word := i.row.matchBits ||| i.imm.setWidth 16

/-- R36: the ten rows of the opcode map, in the table's order. -/
def opcodeTable : List OpcodeRow :=
  [.ckInit, .ckSym 0#8, .ckHi 0#8, .ckLo 0#8, .ckVfy, .ckFin, .ckRd, .rgInit .eightToFive, .rgPush 0#8, .rgFlush .strict].map
    Instr.row

/-- R36: `W & mask = match`. -/
def OpcodeRow.holds (r : OpcodeRow) (w : Word) : Bool := (w &&& r.mask) == r.matchBits

/-- The word whose low `nbits` bits are those of `w`, the bits above being zero: a command is one 16-bit word, so bit
0 of the numbering is bit 0 of the word (R34). -/
def tableWord (nbits w : Nat) : Word := BitVec.ofNat 16 (w % 2 ^ nbits)

/-- The host's question: the command the decoder reads from a word given as a number. -/
def decodeTableWord (nbits w : Nat) : Option Instr := (decode (tableWord nbits w)).instr?

end Sys2Proof
end

