-- ==== Sys2Proof/Config.lean ====
section
/-! DEFINITION. The implementation parameters of 00_scope.md R5 that other definitions read. The width parameters
of R5 are the widths of the types in Word.lean and Machine/State.lean; `GEN` stands in Machine/Ops.lean and
`fromBits`/`toBits` in Machine/Operands.lean, where a repair may mend them. The spec's open parameters
`PIN_PROTOCOL` and `T_CMD` are read by no rule (R5, R17), so nothing here stands for them (log entries 8 and 9).
The spec leaves no value of the engine open, so there is no free value. -/

namespace Sys2Proof.Config

/-- `CHK_INIT`: the start value of the accumulator (R5, R50). -/
def chkInit : Residue := 1#30

/-- `CHK_OK`: the residue of a valid sequence (R5, R54). -/
def chkOk : Residue := 1#30

/-- `CSUM_LEN`: the checksum's length in Symbols (R5, R55). -/
def csumLen : Nat := 6

end Sys2Proof.Config
end

