-- ==== Sys2Proof/Machine/State.lean ====
section
/-! DEFINITION. The state of the engine: the four registers of 10_state.md R10 to R13, and the two ends of its ports
(20_memory.md R24), which are the model's own fields and no registers of the engine. The engine has no memory, no
program counter, no flags and no general registers (R16, R23). -/

namespace Sys2Proof.Machine

/-- The error codes 1 to 5 of 60_exceptions.md R94. Code 0 is success and codes 6 to 15 are never produced. -/
inductive ErrorCode where
  /-- `E_ILLEGAL`: the word matches no row of R36. -/
  | illegal
  /-- `E_SYMBOL`: `CK.SYM` with `IMM > 31`. -/
  | symbol
  /-- `E_RANGE`: `RG.PUSH` with `IMM` wider than `fromBits`. -/
  | range
  /-- `E_PAD_ZERO`: `RG.FLUSH 0` with `BITS >= fromBits`. -/
  | padZero
  /-- `E_PAD_NONZERO`: `RG.FLUSH 0` with a non-zero would-be final group. -/
  | padNonzero
  deriving DecidableEq, Repr

/-- The output values of a successful response, one shape per row of R19. -/
inductive Output where
  /-- No value: `CK.INIT`, `CK.SYM`, `CK.HI`, `CK.LO`, `RG.INIT`. -/
  | nothing
  /-- `CK.VFY`: the one value `valid`, 1 or 0. -/
  | valid (answer : Bool)
  /-- `CK.FIN`: the six checksum Symbols, most significant group first. -/
  | checksum (s0 s1 s2 s3 s4 s5 : Symbol)
  /-- `CK.RD`: the one 30-bit value `CHK`. -/
  | residue (chk : Residue)
  /-- `RG.PUSH`, `RG.FLUSH`: the groups emitted, earliest first, each at most 8 bits wide. -/
  | groups (gs : List Byte)
  deriving DecidableEq, Repr

/-- A response (R18). `ERR`, `N`, `outs`, `ERRVAL` and the packed word are read off it in Machine/Response.lean. -/
inductive Response where
  /-- `ok()`: `ERR = 0`, the values emitted, no `ERRVAL`. -/
  | ok (out : Output)
  /-- `fail(code, val)`: `ERR = code`, no values, `ERRVAL = val`. -/
  | error (code : ErrorCode) (val : BitVec 16)
  deriving DecidableEq, Repr

/-- What the outside presents to the engine between two commands: the next command word (R31), or a reset, which is
"an event outside the command stream" that "falls between two commands" (R106). Log entries 1 and 4. -/
inductive Input where
  | command (w : Word)
  | reset
  deriving DecidableEq, Repr

/-- The engine's registers and the two ends of its ports. -/
structure State where
  /-- `CHK`, the checksum accumulator, 30 bits (R10). -/
  chk : Residue
  /-- `ACC`, the regrouper's bit accumulator, 12 bits (R11), the stale bits above `BITS` kept (R20; log entry 15). -/
  acc : BitVec 12
  /-- `BITS`, the leftover-bit counter, 4 bits (R12). -/
  bits : BitVec 4
  /-- `MODE`, the regrouper's direction, 1 bit (R13). -/
  mode : Direction
  /-- DESIGN CHOICE, the model's own field: what the outside has presented and the engine has not yet taken, the next
  first (log entry 1). The engine stores none of it (R17); no meaning of a command reads it. -/
  inputs : List Input
  /-- DESIGN CHOICE, the model's own field: the responses delivered so far, the first first (log entry 3). The engine
  keeps none of it (R18); no definition of the machine reads it. -/
  responses : List Response
  deriving DecidableEq, Repr

/-- The engine has no fault: failures are "never raised as uncatchable faults" (R93), there are no traps (R97), and
it "never halts and has no terminal state" (R116). So no constructor. -/
inductive Fault where
  deriving DecidableEq, Repr

/-- Why a step has no meaning in the model. -/
inductive Refusal where
  /-- Raised by an arm of `exec` for an instruction that has no meaning yet; no arm raises it in this model. Safe: the
  model stops where the engine goes on. -/
  | notModelled (mnemonic : String)
  deriving DecidableEq, Repr

/-- The reset state (R21, R105): `CHK = 1`, `ACC = 0`, `BITS = 0`, `MODE = 0` (8-to-5), no response delivered
("There is no response pending after reset"), and nothing presented yet (log entry 1). -/
def State.reset : State :=
  { chk := Config.chkInit, acc := 0#12, bits := 0#4, mode := .eightToFive, inputs := [], responses := [] }

end Sys2Proof.Machine
end

