-- ==== Sys2Proof/Machine/Operands.lean ====
section
/-! DEFINITION. How each command reads its operand (30_encoding.md R37) and the widths `MODE` selects
(41_bit_regrouper.md R61). -/

namespace Sys2Proof.Machine

/-- `CK.SYM v`: the Symbol `v`, once its range is checked (R51). -/
def symbolOf (v : Byte) : Symbol := v.setWidth 5

/-- `CK.HI c`: `IMM[7:5]`, a value 0 to 7 (R52). -/
def highPart (c : Byte) : Symbol := (c >>> 5).setWidth 5

/-- `CK.LO c`: `IMM[4:0]`, a value 0 to 31 (R53). -/
def lowPart (c : Byte) : Symbol := c.setWidth 5

/-- R61: the width of an input value. -/
def fromBits : Direction → Nat
  | .eightToFive => 8
  | .fiveToEight => 5

/-- R61: the width of an output group. -/
def toBits : Direction → Nat
  | .eightToFive => 5
  | .fiveToEight => 8

/-- R61: `mask = 2^toBits - 1`. -/
def groupMask (d : Direction) : Nat := 2 ^ toBits d - 1

end Sys2Proof.Machine
end

