-- ==== Sys2Proof/Machine/Ops.lean ====
section
/-! DEFINITION. The operations the commands share: the register writes, the two ends of a command (`ok()` and `fail`,
00_scope.md R7), reset (70_reset_and_hazards.md R106), the checksum step (40_checksum_engine.md R48) and the
regrouper's emission of groups (41_bit_regrouper.md R63).

What other hardware calls taking an exception is `State.fail` here: "'Trap entry' for this engine is: deliver the
error response. Nothing is saved because nothing was changed; no mode changes" (R100). There is "no return-from-trap
command and nothing to restore" (R101), so no operation stands beside it. -/

namespace Sys2Proof.Machine

/-! ### Register writes -/

/-- `CHK <- chk`. -/
def State.setChk (s : State) (chk : Residue) : State := { s with chk := chk }

/-- `ACC <- acc; BITS <- bits`. -/
def State.setLeftover (s : State) (acc : BitVec 12) (bits : BitVec 4) : State := { s with acc := acc, bits := bits }

/-- `MODE <- mode`. -/
def State.setMode (s : State) (mode : Direction) : State := { s with mode := mode }

/-! ### The ends of a command -/

/-- The engine delivers a response, after all earlier ones (R31). -/
def State.deliver (s : State) (r : Response) : State := { s with responses := s.responses ++ [r] }

/-- `ok()`: finish successfully with the values emitted (R7). -/
def State.ok (s : State) (out : Output) : State := s.deliver (.ok out)

/-- `fail(code, val)`: finish unsuccessfully (R7, R95). It is applied to the state before the command, so that every
register write of the command is discarded. -/
def State.fail (s : State) (code : ErrorCode) (val : BitVec 16) : State := s.deliver (.error code val)

/-- An illegal word: `E_ILLEGAL`, `ERRVAL` the whole word, no register written (R39, R96). -/
def State.failIllegal (s : State) (w : Word) : State := s.fail .illegal w

/-! ### Reset and the command port -/

/-- R105, R106: the registers take their reset values; responses already delivered remain, and no response is
produced. -/
def State.takeReset (s : State) : State :=
  { State.reset with inputs := s.inputs, responses := s.responses }

/-- With nothing presented the engine is idle, "and idleness is not state" (R103): nothing changes (log entry 2). -/
def State.idle (s : State) : State := s

/-- What stands presented becomes `inputs`: the engine has taken the first, or the outside has presented more. -/
def State.withInputs (s : State) (inputs : List Input) : State := { s with inputs := inputs }

/-! ### The checksum step -/

/-- The generator constants `GEN[0..4]` (10_state.md R15). -/
def gen : Fin 5 → Residue
  | 0 => 0x3b6a57b2#30
  | 1 => 0x26508e6d#30
  | 2 => 0x1ea119fa#30
  | 3 => 0x3d4233dd#30
  | 4 => 0x2a1462b3#30

/-- `top = chk >> 25` (R48). -/
def topSymbol (chk : Residue) : Symbol := (chk >>> 25).setWidth 5

/-- One pass of R48's loop, as the term it XORs in: `GEN[i]` if bit `i` of `top` is 1, else nothing. -/
def genTerm (top : Symbol) (i : Fin 5) : Residue := if top.getLsbD i.val then gen i else 0#30

/-- `ck_step(chk, v)` (R48). -/
def ckStep (chk : Residue) (v : Symbol) : Residue :=
  (((chk &&& 0x1ffffff#30) <<< 5) ^^^ v.setWidth 30)
    ^^^ genTerm (topSymbol chk) 0 ^^^ genTerm (topSymbol chk) 1 ^^^ genTerm (topSymbol chk) 2
    ^^^ genTerm (topSymbol chk) 3 ^^^ genTerm (topSymbol chk) 4

/-- Absorbing a sequence of Symbols, the first first (R72). -/
def absorbAll (chk : Residue) (vs : List Symbol) : Residue := vs.foldl ckStep chk

/-- `CHK <- ck_step(CHK, v)`, `ok()` with no value: what every absorbing command does (R51 to R53). -/
def State.absorb (s : State) (v : Symbol) : State := (s.setChk (ckStep s.chk v)).ok .nothing

/-- `m` of `CK.FIN` (R55): six zero Symbols absorbed into a copy of `CHK`, then `XOR 1`. -/
def checksumValue (chk : Residue) : Residue := absorbAll chk (List.replicate Config.csumLen 0#5) ^^^ 1#30

/-- Group `p` of `m` (R25, R55): `(m >> (5*(5-p))) & 31`. -/
def checksumGroup (m : Residue) (p : Nat) : Symbol := (m >>> (5 * (5 - p))).setWidth 5

/-! ### The regrouper's bitstream -/

/-- `a = trunc_12((ACC << fromBits) | IMM)` (R63); `<<` drops no bit by itself (R7). -/
def pushBits (acc : BitVec 12) (d : Direction) (v : Byte) : BitVec 12 :=
  BitVec.ofNat 12 ((acc.toNat <<< fromBits d) ||| v.toNat)

/-- `(a >> b) & mask`, the value emitted (R63). -/
def groupAt (d : Direction) (a : BitVec 12) (b : Nat) : Byte := BitVec.ofNat 8 ((a.toNat >>> b) &&& groupMask d)

/-- R63's loop `while b >= toBits: b = b - toBits; emit((a >> b) & mask)`: the groups emitted and the `b` left over.
The first argument bounds the passes; `b` itself is bound enough, since each pass lowers `b` (R68). -/
def emitGroups (d : Direction) (a : BitVec 12) : Nat → Nat → List Byte × Nat
  | 0, b => ([], b)
  | passes + 1, b =>
    if toBits d ≤ b then
      (groupAt d a (b - toBits d) :: (emitGroups d a passes (b - toBits d)).1,
        (emitGroups d a passes (b - toBits d)).2)
    else ([], b)

/-- `b = BITS + fromBits` of a push, before its loop (R63). -/
def bitsHeld (s : State) : Nat := s.bits.toNat + fromBits s.mode

/-- R63 after its range check: append `v` to the bitstream and emit every complete group. -/
def State.append (s : State) (v : Byte) : State :=
  let a := pushBits s.acc s.mode v
  let emitted := emitGroups s.mode a (bitsHeld s) (bitsHeld s)
  (s.setLeftover a (BitVec.ofNat 4 emitted.2)).ok (.groups emitted.1)

/-- `g = (ACC << (toBits - BITS)) & mask`, the would-be final partial group (R65). -/
def finalGroup (s : State) : Byte :=
  BitVec.ofNat 8 ((s.acc.toNat <<< (toBits s.mode - s.bits.toNat)) &&& groupMask s.mode)

/-- R65 after its checks: `ACC <- 0; BITS <- 0; ok()`. -/
def State.endSession (s : State) (gs : List Byte) : State := (s.setLeftover 0#12 0#4).ok (.groups gs)

end Sys2Proof.Machine
end

