-- ==== Sys2Proof/Machine/Flags.lean ====
section
/-! DEFINITION. The conditions a command decides by. The engine has no flag (10_state.md R16): every outcome leaves in
the response of the command that produced it. What stands here in the flags' place is the answer of `CK.VFY` (R54)
and the conditions of the error codes (60_exceptions.md R94). -/

namespace Sys2Proof.Machine

/-- R54: `valid` is 1 iff `CHK = 1`. -/
def isValid (s : State) : Bool := s.chk == Config.chkOk

/-- R51: `IMM > 31`. -/
def exceedsSymbol (v : Byte) : Bool := decide (31 < v.toNat)

/-- R63: `IMM >= 2^fromBits`, with the current `MODE`. -/
def exceedsRange (s : State) (v : Byte) : Bool := decide (2 ^ fromBits s.mode ≤ v.toNat)

/-- R65: `BITS >= fromBits`, "illegal zero padding". -/
def tooManyLeftover (s : State) : Bool := decide (fromBits s.mode ≤ s.bits.toNat)

/-- R65: `g != 0`, "non-zero padding". -/
def nonzeroLeftover (s : State) : Bool := finalGroup s != 0#8

end Sys2Proof.Machine
end

