-- ==== Sys2Proof/Machine/BitRegrouper.lean ====
section
/-! DEFINITION. The meanings of the three bit-regrouper commands (41_bit_regrouper.md R62, R63, R65). -/

namespace Sys2Proof.Machine

/-- `RG.INIT d` (R62): `ACC <- 0; BITS <- 0; MODE <- d`, leftover bits discarded without an error. -/
def execRgInit (d : Direction) (s : State) : Host.Outcome State Fault Refusal :=
  .next (((s.setLeftover 0#12 0#4).setMode d).ok .nothing)

/-- `RG.PUSH v` (R63): `E_RANGE` if `v` uses more than `fromBits` bits, else append it and emit the complete
groups. -/
def execRgPush (v : Byte) (s : State) : Host.Outcome State Fault Refusal :=
  if exceedsRange s v then .next (s.fail .range (v.setWidth 16)) else .next (s.append v)

/-- `RG.FLUSH 1` (R65): emit the left-justified leftover bits, if there are any. -/
def flushPad (s : State) : State :=
  s.endSession (if 0 < s.bits.toNat then [finalGroup s] else [])

/-- `RG.FLUSH 0` (R65): `E_PAD_ZERO` is tested before `E_PAD_NONZERO` (R99). -/
def flushStrict (s : State) : State :=
  if tooManyLeftover s then s.fail .padZero (s.bits.setWidth 16)
  else if nonzeroLeftover s then s.fail .padNonzero ((finalGroup s).setWidth 16)
  else s.endSession []

/-- `RG.FLUSH p` (R65): apply the padding policy to the leftover bits. -/
def execRgFlush (p : Padding) (s : State) : Host.Outcome State Fault Refusal :=
  match p with
  | .pad => .next (flushPad s)
  | .strict => .next (flushStrict s)

end Sys2Proof.Machine
end

