-- ==== Sys2Proof/Machine/ChecksumEngine.lean ====
section
/-! DEFINITION. The meanings of the seven checksum-engine commands (40_checksum_engine.md R50 to R56). -/

namespace Sys2Proof.Machine

/-- `CK.INIT` (R50): `CHK <- 1`. -/
def execCkInit (s : State) : Host.Outcome State Fault Refusal :=
  .next ((s.setChk Config.chkInit).ok .nothing)

/-- `CK.SYM v` (R51): `E_SYMBOL` if `v > 31`, else absorb `v`. -/
def execCkSym (v : Byte) (s : State) : Host.Outcome State Fault Refusal :=
  if exceedsSymbol v then .next (s.fail .symbol (v.setWidth 16)) else .next (s.absorb (symbolOf v))

/-- `CK.HI c` (R52): absorb `c[7:5]`; no range check on `c`. -/
def execCkHi (c : Byte) (s : State) : Host.Outcome State Fault Refusal :=
  .next (s.absorb (highPart c))

/-- `CK.LO c` (R53): absorb `c[4:0]`; no range check on `c`. -/
def execCkLo (c : Byte) (s : State) : Host.Outcome State Fault Refusal :=
  .next (s.absorb (lowPart c))

/-- `CK.VFY` (R54): answer whether `CHK = 1`; no register is written. -/
def execCkVfy (s : State) : Host.Outcome State Fault Refusal :=
  .next (s.ok (.valid (isValid s)))

/-- `CK.FIN` (R55): answer the six groups of `m`; `CHK` keeps the residue absorbed so far. -/
def execCkFin (s : State) : Host.Outcome State Fault Refusal :=
  let m := checksumValue s.chk
  .next (s.ok (.checksum (checksumGroup m 0) (checksumGroup m 1) (checksumGroup m 2) (checksumGroup m 3)
    (checksumGroup m 4) (checksumGroup m 5)))

/-- `CK.RD` (R56): answer `CHK`; no register is written. -/
def execCkRd (s : State) : Host.Outcome State Fault Refusal :=
  .next (s.ok (.residue s.chk))

end Sys2Proof.Machine
end

