-- ==== Sys2Proof/Machine/Dispatch.lean ====
section
/-! DEFINITION. The dispatch of a decoded command to its meaning, one arm per row of spec/opcode_table.json. -/

namespace Sys2Proof.Machine

-- one arm per constructor of Instr, in the table's order
def exec (i : Instr) (s : State) : Host.Outcome State Fault Refusal :=
  match i with
  | .ckInit => Sys2Proof.Machine.execCkInit s
  | .ckSym v => Sys2Proof.Machine.execCkSym v s
  | .ckHi c => Sys2Proof.Machine.execCkHi c s
  | .ckLo c => Sys2Proof.Machine.execCkLo c s
  | .ckVfy => Sys2Proof.Machine.execCkVfy s
  | .ckFin => Sys2Proof.Machine.execCkFin s
  | .ckRd => Sys2Proof.Machine.execCkRd s
  | .rgInit d => Sys2Proof.Machine.execRgInit d s
  | .rgPush v => Sys2Proof.Machine.execRgPush v s
  | .rgFlush p => Sys2Proof.Machine.execRgFlush p s

end Sys2Proof.Machine
end

