-- ==== Sys2Proof/Machine/Port.lean ====
section
/-! DEFINITION. The command port: what the engine does with what is presented to it (00_scope.md R4, 20_memory.md
R31, 60_exceptions.md R99). -/

namespace Sys2Proof.Machine

/-- A command word is decoded first; a command is executed, an illegal word answered with `E_ILLEGAL` and no operand
check made (R39, R99). -/
def takeCommand (w : Word) (s : State) : Host.Outcome State Fault Refusal :=
  match decode w with
  | .command i => exec i s
  | .illegal _ => .next (s.failIllegal w)

/-- A command is executed completely before the next is looked at (R4); a reset falls between two commands (R106). -/
def takeInput (e : Input) (s : State) : Host.Outcome State Fault Refusal :=
  match e with
  | .command w => takeCommand w s
  | .reset => .next s.takeReset

end Sys2Proof.Machine
end

