-- ==== Sys2Proof/Machine/Step.lean ====
section
/-! DEFINITION. One step of the engine: it takes what was presented first and deals with it completely
(00_scope.md R4, 20_memory.md R31). -/

namespace Sys2Proof.Machine

/-- One step; with nothing presented the engine is idle (R103; log entry 2). -/
def step (s : State) : Host.Outcome State Fault Refusal :=
  match s.inputs with
  | [] => .next s.idle
  | e :: rest => takeInput e (s.withInputs rest)

/-- The word given as a number is the next one on the command port; what was presented before comes after it. -/
def State.withFetchWord (s : State) (nbits w : Nat) : State :=
  s.withInputs (.command (tableWord nbits w) :: s.inputs)

end Sys2Proof.Machine
end

