-- ==== Sys2Proof/Machine/Assembler.lean ====
section
/-! DEFINITION. The assembler syntax of 30_encoding.md R44: one command a line, the mnemonic of R36 in upper case, at
most one operand, `;` to the end of the line a comment. What R44 leaves open of the characters is log entry 10. -/

namespace Sys2Proof.Machine.Asm

/-- An operand as written: a number (decimal, hexadecimal or a quoted character) or a name. -/
inductive Operand where
  | number (n : Nat)
  | name (cs : List Char)
  deriving DecidableEq, Repr

/-- The value of a digit in base 10. -/
def decDigit (c : Char) : Option Nat := if c.isDigit then some (c.toNat - '0'.toNat) else none

/-- The value of a digit in base 16, letters in either case. -/
def hexDigit (c : Char) : Option Nat :=
  if c.isDigit then some (c.toNat - '0'.toNat)
  else if 'a' ≤ c ∧ c ≤ 'f' then some (c.toNat - 'a'.toNat + 10)
  else if 'A' ≤ c ∧ c ≤ 'F' then some (c.toNat - 'A'.toNat + 10)
  else none

/-- The number a run of digits writes, after the value of the digits before it. -/
def digits (base : Nat) (digit : Char → Option Nat) : List Char → Nat → Option Nat
  | [], n => some n
  | c :: cs, n =>
    match digit c with
    | some d => digits base digit cs (base * n + d)
    | none => none

/-- A token as an operand (R44): `0x61` and `28` are numbers, anything else a name. -/
def operandOf (tok : List Char) : Operand :=
  match tok with
  | '0' :: 'x' :: c :: cs => ((digits 16 hexDigit (c :: cs) 0).map Operand.number).getD (.name tok)
  | c :: cs => ((digits 10 decDigit (c :: cs) 0).map Operand.number).getD (.name tok)
  | [] => .name tok

/-- The first token of a line and what follows it; a space or `;` ends a token. -/
def token : List Char → List Char × List Char
  | [] => ([], [])
  | c :: cs => if c = ' ' ∨ c = ';' then ([], c :: cs) else (c :: (token cs).1, (token cs).2)

/-- A line without its leading spaces. -/
def skipSpaces (cs : List Char) : List Char := cs.dropWhile (· == ' ')

/-- Nothing more than spaces and a comment. -/
def atEnd (cs : List Char) : Bool :=
  match skipSpaces cs with
  | [] => true
  | c :: _ => c == ';'

/-- What follows the mnemonic: no operand, one operand, or no line of the syntax. -/
def operand? (cs : List Char) : Option (Option Operand) :=
  if atEnd cs then some none
  else
    match skipSpaces cs with
    | '\'' :: c :: '\'' :: rest => if atEnd rest then some (some (.number c.toNat)) else none
    | rest => if atEnd (token rest).2 then some (some (operandOf (token rest).1)) else none

/-- An operand in 0 to 255 (R44). -/
def byteOperand : Option Operand → Option Byte
  | some (.number n) => if n ≤ 255 then some (BitVec.ofNat 8 n) else none
  | _ => none

/-- An operand in 0 to 1, or one of its two names (R44). -/
def bitOperand (zero one : List Char) : Option Operand → Option Bool
  | some (.number n) => if n = 0 then some false else if n = 1 then some true else none
  | some (.name cs) => if cs = zero then some false else if cs = one then some true else none
  | none => none

/-- No operand. -/
def noOperand : Option Operand → Option Unit
  | none => some ()
  | some _ => none

/-- The command of a mnemonic and an operand (R36, R44). -/
def command? (mnemonic : List Char) (o : Option Operand) : Option Instr :=
  if mnemonic = "CK.INIT".toList then (noOperand o).map fun _ => .ckInit
  else if mnemonic = "CK.SYM".toList then (byteOperand o).map .ckSym
  else if mnemonic = "CK.HI".toList then (byteOperand o).map .ckHi
  else if mnemonic = "CK.LO".toList then (byteOperand o).map .ckLo
  else if mnemonic = "CK.VFY".toList then (noOperand o).map fun _ => .ckVfy
  else if mnemonic = "CK.FIN".toList then (noOperand o).map fun _ => .ckFin
  else if mnemonic = "CK.RD".toList then (noOperand o).map fun _ => .ckRd
  else if mnemonic = "RG.INIT".toList then
    (bitOperand "8TO5".toList "5TO8".toList o).map fun b => .rgInit (Direction.ofBit b)
  else if mnemonic = "RG.PUSH".toList then (byteOperand o).map .rgPush
  else if mnemonic = "RG.FLUSH".toList then
    (bitOperand "STRICT".toList "PAD".toList o).map fun b => .rgFlush (Padding.ofBit b)
  else none

/-- A line of the syntax that holds a command: its command. -/
def line? (cs : List Char) : Option Instr :=
  (operand? (token (skipSpaces cs)).2).bind (command? (token (skipSpaces cs)).1)

/-- A program of the syntax: the commands of its lines, in order, lines that hold only spaces or a comment left out;
none if some other line holds no command. -/
def program? : List (List Char) → Option (List Instr)
  | [] => some []
  | cs :: rest =>
    if atEnd cs then program? rest
    else
      match line? cs, program? rest with
      | some i, some is => some (i :: is)
      | _, _ => none

end Sys2Proof.Machine.Asm
end

