-- ==== Sys2Proof/Machine/Reference.lean ====
section
/-! DEFINITION. D0's whole-sequence functions `expand`, `residue`, `verify`, `create` (40_checksum_engine.md R52, R54,
R55, 42_host_sequences.md R71 to R74) and `convert` with D0's unbounded accumulator (41_bit_regrouper.md R60, R66).
The machine reads none of this: it is what the host sequences are held against. -/

namespace Sys2Proof.Machine.Reference

/-- `expand(prefix)`: all the high parts, the separator 0, all the low parts (R71). -/
def expand (chars : List Byte) : List Symbol := chars.map highPart ++ 0#5 :: chars.map lowPart

/-- `residue(sequence)`: the fold of `ck_step` from 1 (R72). -/
def residue (vs : List Symbol) : Residue := absorbAll 1#30 vs

/-- `verify(prefix, data)` (R73). -/
def verify (chars : List Byte) (data : List Symbol) : Bool := residue (expand chars ++ data) == 1#30

/-- `m` of `create(prefix, data)` (R74). -/
def createValue (chars : List Byte) (data : List Symbol) : Residue :=
  residue (expand chars ++ data ++ [0#5, 0#5, 0#5, 0#5, 0#5, 0#5]) ^^^ 1#30

/-- `create(prefix, data)`: the six groups of `m`, group `p` being `(m >> (5*(5-p))) & 31` (R74). -/
def create (chars : List Byte) (data : List Symbol) : List Symbol :=
  (List.range 6).map fun p => BitVec.ofNat 5 (((createValue chars data).toNat >>> (5 * (5 - p))) &&& 31)

/-- The failures of D0's `convert` (R60, R75). -/
inductive ConvertError where
  /-- *RangeError*, with the offending value. -/
  | range (v : Nat)
  /-- *PaddingError("illegal zero padding")*, with the number of leftover bits. -/
  | illegalZeroPadding (bits : Nat)
  /-- *PaddingError("non-zero padding")*, with the would-be final group. -/
  | nonZeroPadding (g : Nat)
  deriving DecidableEq, Repr

/-- D0's loop "while `bits ≥ toBits`: `bits -= toBits`; emit `(acc >> bits) & ((1<<toBits)-1)`": the groups and the bits
left. The third argument bounds the passes. -/
def emit (tw acc : Nat) : Nat → Nat → List Nat × Nat
  | 0, bits => ([], bits)
  | passes + 1, bits =>
    if tw ≤ bits then
      (((acc >>> (bits - tw)) &&& (2 ^ tw - 1)) :: (emit tw acc passes (bits - tw)).1,
        (emit tw acc passes (bits - tw)).2)
    else ([], bits)

/-- D0's "For each input value `v`", from an accumulator and a bit count, with an accumulator of no stated width: the
groups emitted, `acc` and `bits` at the end. -/
def consume (fw tw : Nat) : List Nat → Nat → Nat → Except ConvertError (List Nat × Nat × Nat)
  | [], acc, bits => .ok ([], acc, bits)
  | v :: vs, acc, bits =>
    if 2 ^ fw ≤ v then .error (.range v)
    else
      match consume fw tw vs ((acc <<< fw) ||| v) (emit tw ((acc <<< fw) ||| v) (bits + fw) (bits + fw)).2 with
      | .error e => .error e
      | .ok (gs, acc', bits') =>
        .ok ((emit tw ((acc <<< fw) ||| v) (bits + fw) (bits + fw)).1 ++ gs, acc', bits')

/-- D0's "After consuming input" (R60). -/
def finish (fw tw : Nat) (pad : Bool) (gs : List Nat) (acc bits : Nat) : Except ConvertError (List Nat) :=
  if pad then
    if 0 < bits then .ok (gs ++ [(acc <<< (tw - bits)) &&& (2 ^ tw - 1)]) else .ok gs
  else if fw ≤ bits then .error (.illegalZeroPadding bits)
  else if (acc <<< (tw - bits)) &&& (2 ^ tw - 1) ≠ 0 then
    .error (.nonZeroPadding ((acc <<< (tw - bits)) &&& (2 ^ tw - 1)))
  else .ok gs

/-- D0's `convert(data, fromBits, toBits, pad)` (R60). -/
def convert (data : List Nat) (fw tw : Nat) (pad : Bool) : Except ConvertError (List Nat) :=
  match consume fw tw data 0 0 with
  | .error e => .error e
  | .ok (gs, acc, bits) => finish fw tw pad gs acc bits

end Sys2Proof.Machine.Reference
end

