-- ==== Sys2Proof/Machine/Response.lean ====
section
/-! DEFINITION. The four fields of a response (10_state.md R18, 60_exceptions.md R94) and its packing into the 40-bit
response word (30_encoding.md R42, R43). -/

namespace Sys2Proof.Machine

/-- The number of an error code (R94). -/
def ErrorCode.code : ErrorCode → BitVec 4
  | .illegal => 1#4
  | .symbol => 2#4
  | .range => 3#4
  | .padZero => 4#4
  | .padNonzero => 5#4

/-- The output values as numbers, in emission order (R18). -/
def Output.values : Output → List Nat
  | .nothing => []
  | .valid answer => [if answer then 1 else 0]
  | .checksum s0 s1 s2 s3 s4 s5 => [s0.toNat, s1.toNat, s2.toNat, s3.toNat, s4.toNat, s5.toNat]
  | .residue chk => [chk.toNat]
  | .groups gs => gs.map BitVec.toNat

/-- R43 for the regrouper: output value `k` is `DATA[8k+7 : 8k]`, the bytes above the last being zero. -/
def packGroups : List Byte → BitVec 32
  | [] => 0#32
  | g :: gs => (packGroups gs <<< 8) ||| g.setWidth 32

/-- `DATA` of a successful response (R43). -/
def Output.data : Output → BitVec 32
  | .nothing => 0#32
  | .valid answer => if answer then 1#32 else 0#32
  | .checksum s0 s1 s2 s3 s4 s5 => (s0 ++ s1 ++ s2 ++ s3 ++ s4 ++ s5 : BitVec 30).setWidth 32
  | .residue chk => chk.setWidth 32
  | .groups gs => packGroups gs

/-- `ERR` (R18): 0 on success. -/
def Response.err : Response → BitVec 4
  | .ok _ => 0#4
  | .error code _ => code.code

/-- `outs` (R18): empty on an error. -/
def Response.outs : Response → List Nat
  | .ok out => out.values
  | .error _ _ => []

/-- `N` (R18): the number of output values. -/
def Response.count (r : Response) : Nat := r.outs.length

/-- `ERRVAL` (R18): absent on success. -/
def Response.errVal : Response → Option (BitVec 16)
  | .ok _ => none
  | .error _ val => some val

/-- `DATA` (R42): the packed output values, or `ERRVAL` zero-extended. -/
def Response.data : Response → BitVec 32
  | .ok out => out.data
  | .error _ val => val.setWidth 32

/-- The 40-bit response word (R42): `ERR[39:36]`, zero `[35]`, `N[34:32]`, `DATA[31:0]`. -/
def Response.word (r : Response) : ResponseWord :=
  r.err ++ 0#1 ++ BitVec.ofNat 3 r.count ++ r.data

end Sys2Proof.Machine
end

