-- ==== Sys2Proof/Machine/HostSequences.lean ====
section
/-! DEFINITION. The host's side of the two ports: the pseudo-instructions and how their result is read
(30_encoding.md R45, 42_host_sequences.md R70 to R75), runs (70_reset_and_hazards.md R116) and the host's names for
the engine's errors (60_exceptions.md R104). No definition of the machine reads any of this. -/

namespace Sys2Proof.Machine

/-- `n` steps, stopping at the first fault or refusal. -/
def run : Nat → State → Host.Outcome State Fault Refusal
  | 0, s => .next s
  | n + 1, s =>
    match step s with
    | .next t => run n t
    | .fault r => .fault r
    | .refused r => .refused r

/-- The host presents words, to be taken before anything else that is presented. -/
def State.presentWords (s : State) (ws : List Word) : State := s.withInputs (ws.map Input.command ++ s.inputs)

/-- The host presents commands, by their words (R41). -/
def State.present (s : State) (is : List Instr) : State := s.presentWords (is.map encode)

/-- The five pseudo-instructions (R45). -/
inductive Pseudo where
  /-- `.EXPAND "prefix"` (R71). -/
  | expand (chars : List Byte)
  /-- `.RESIDUE [v0, ...]` (R72). -/
  | residue (values : List Byte)
  /-- `.VERIFY "prefix", [d0, ...]` (R73). -/
  | verify (chars data : List Byte)
  /-- `.CREATE "prefix", [d0, ...]` (R74). -/
  | create (chars data : List Byte)
  /-- `.CONVERT dir, pad, [v0, ...]` (R75). -/
  | convert (dir : Direction) (policy : Padding) (values : List Byte)
  deriving DecidableEq, Repr

/-- R71: `CK.HI` for each character, `CK.SYM 0`, `CK.LO` for each character. -/
def expandCommands (chars : List Byte) : List Instr := chars.map .ckHi ++ .ckSym 0#8 :: chars.map .ckLo

/-- The command list a pseudo-instruction stands for; it depends on its operands only (R70 to R75). -/
def Pseudo.expansion : Pseudo → List Instr
  | .expand chars => expandCommands chars
  | .residue values => .ckInit :: values.map .ckSym ++ [.ckRd]
  | .verify chars data => .ckInit :: expandCommands chars ++ data.map .ckSym ++ [.ckVfy]
  | .create chars data => .ckInit :: expandCommands chars ++ data.map .ckSym ++ [.ckFin]
  | .convert dir policy values => .rgInit dir :: values.map .rgPush ++ [.rgFlush policy]

/-- The result of a command list, read from its responses (R70): the concatenation of their `outs` if every response
has `ERR = 0`, else the first error with its `ERRVAL`. -/
def hostResult : List Response → Except (ErrorCode × BitVec 16) (List Nat)
  | [] => .ok []
  | .error code val :: _ => .error (code, val)
  | .ok out :: rs =>
    match hostResult rs with
    | .ok vs => .ok (out.values ++ vs)
    | .error e => .error e

/-- R75: the error response that answers a failure of D0's `convert`. -/
def errorOfConvert : Reference.ConvertError → ErrorCode × BitVec 16
  | .range v => (.range, BitVec.ofNat 16 v)
  | .illegalZeroPadding bits => (.padZero, BitVec.ofNat 16 bits)
  | .nonZeroPadding g => (.padNonzero, BitVec.ofNat 16 g)

/-- D0's names for the failures a host reports (R104); those the host's own checks raise have no engine response
behind them and do not stand here. -/
inductive HostError where
  /-- *InvalidSymbolError*, `CharsetError` in D0's taxonomy. -/
  | invalidSymbol
  /-- *RangeError*, `CharsetError` in D0's taxonomy. -/
  | range
  /-- `PaddingError`, "illegal zero padding". -/
  | illegalZeroPadding
  /-- `PaddingError`, "non-zero padding". -/
  | nonZeroPadding
  /-- `ChecksumError`. -/
  | checksum
  deriving DecidableEq, Repr

/-- R104: the host error an engine response stands for; `E_ILLEGAL` is a host bug and has none. -/
def Response.hostError : Response → Option HostError
  | .error .illegal _ => none
  | .error .symbol _ => some .invalidSymbol
  | .error .range _ => some .range
  | .error .padZero _ => some .illegalZeroPadding
  | .error .padNonzero _ => some .nonZeroPadding
  | .ok (.valid false) => some .checksum
  | .ok _ => none

end Sys2Proof.Machine
end

