-- ==== Sys2Proof/Safety.lean ====
section
/-! DEFINITION. The terms the claims use: the invariant of 10_state.md R14, the bitstream of 20_memory.md R26, the
equivalence of 10_state.md R20 and the two units of 10_state.md R22. The machine reads none of this. -/

namespace Sys2Proof.Machine

/-- R14 item 3, `0 <= BITS < toBits(MODE)`. Items 1, 2 and 4 hold by the types of the registers. -/
abbrev State.Inv (s : State) : Prop := s.bits.toNat < toBits s.mode

/-- `ACC[BITS-1:0]`, the leftover bits as a number (R20). -/
def leftover (s : State) : Nat := s.acc.toNat % 2 ^ s.bits.toNat

/-- R20: agreement on `CHK`, `MODE`, `BITS` and `ACC[BITS-1:0]`. -/
abbrev SameVisible (s t : State) : Prop :=
  s.chk = t.chk ∧ s.mode = t.mode ∧ s.bits = t.bits ∧ leftover s = leftover t

/-- The low `width` bits of a number, most significant bit first (R6, R26). -/
def bitsMsbFirst : Nat → Nat → List Bool
  | 0, _ => []
  | width + 1, v => v.testBit width :: bitsMsbFirst width v

/-- The bitstream of a sequence of values of one width: each value most significant bit first, in order (R26). -/
def streamBits (width : Nat) (vs : List Nat) : List Bool := vs.flatMap (bitsMsbFirst width)

end Sys2Proof.Machine

namespace Sys2Proof

/-- The two units of the engine (R34). -/
inductive Side where
  | checksum
  | regrouper
  deriving DecidableEq, Repr

/-- The unit a command belongs to (R36). -/
def Instr.side : Instr → Side
  | .ckInit => .checksum
  | .ckSym _ => .checksum
  | .ckHi _ => .checksum
  | .ckLo _ => .checksum
  | .ckVfy => .checksum
  | .ckFin => .checksum
  | .ckRd => .checksum
  | .rgInit _ => .regrouper
  | .rgPush _ => .regrouper
  | .rgFlush _ => .regrouper

/-- R22: the commands whose row has a `w` under `CHK`. -/
def Instr.writesChk : Instr → Bool
  | .ckInit => true
  | .ckSym _ => true
  | .ckHi _ => true
  | .ckLo _ => true
  | .ckVfy => false
  | .ckFin => false
  | .ckRd => false
  | .rgInit _ => false
  | .rgPush _ => false
  | .rgFlush _ => false

/-- R22: the commands whose row has a `w` under `ACC` and `BITS`. -/
def Instr.writesLeftover : Instr → Bool
  | .rgInit _ => true
  | .rgPush _ => true
  | .rgFlush _ => true
  | .ckInit => false
  | .ckSym _ => false
  | .ckHi _ => false
  | .ckLo _ => false
  | .ckVfy => false
  | .ckFin => false
  | .ckRd => false

/-- R22: the commands whose row has a `w` under `MODE`. -/
def Instr.writesMode : Instr → Bool
  | .rgInit _ => true
  | .rgPush _ => false
  | .rgFlush _ => false
  | .ckInit => false
  | .ckSym _ => false
  | .ckHi _ => false
  | .ckLo _ => false
  | .ckVfy => false
  | .ckFin => false
  | .ckRd => false

end Sys2Proof
end

