-- ==== Sys2Proof/Certificates/Slice0/Obligations.lean ====
section
/-! DEFINITION. The statements for the provers. Each docstring names the rule or the section of spec/ it formalises.

How the spec's "response" and "presents" are said here: a command delivers one response more at the end of
`responses` (log entry 3), and what the host has presented stands in `inputs` (log entry 1); both are the model's own
fields. A next state written `{ s with … }` says the frame at once: every register and every other field not named is
as in `s`. The engine has no memory, no flag and no program counter (R16, R23), so no frame speaks of them. -/

open Sys2Proof Sys2Proof.Machine

/-! ### Reset -/

/-- R105: the reset state; no response is pending after it (that responses stand in State is log entry 3). -/
def Obligations.ResetStateIsDefined : Prop :=
  State.reset.chk = 1#30 ∧ State.reset.acc = 0#12 ∧ State.reset.bits = 0#4 ∧ State.reset.mode = .eightToFive ∧
    State.reset.responses = []

/-- R106: a reset between two commands gives the registers the values of R105, keeps the responses already delivered
and produces none. How a reset is presented is the model's choice (log entry 4). -/
def Obligations.ResetEventSetsRegisters : Prop :=
  ∀ (s : State) (rest : List Input), s.inputs = .reset :: rest →
    step s = .next { s with chk := 1#30, acc := 0#12, bits := 0#4, mode := .eightToFive, inputs := rest }

/-- R21: the reset values, the constants included, and "the state reached from any state by `CK.INIT` then
`RG.INIT 0`" has the registers of the reset state. -/
def Obligations.InitCommandsReachResetState : Prop :=
  (State.reset.chk = 1#30 ∧ State.reset.acc = 0#12 ∧ State.reset.bits = 0#4 ∧ State.reset.mode = .eightToFive) ∧
  (gen 0 = 0x3b6a57b2#30 ∧ gen 1 = 0x26508e6d#30 ∧ gen 2 = 0x1ea119fa#30 ∧ gen 3 = 0x3d4233dd#30 ∧
    gen 4 = 0x2a1462b3#30) ∧
  ∀ s : State, ∃ t u, exec .ckInit s = .next t ∧ exec (.rgInit .eightToFive) t = .next u ∧
    u.chk = State.reset.chk ∧ u.acc = State.reset.acc ∧ u.bits = State.reset.bits ∧ u.mode = State.reset.mode

/-! ### Constants and widths -/

/-- R15: the five constants and, the spec's own derivation from them, their decimal and Symbol columns, most
significant Symbol first. -/
def Obligations.GeneratorConstants : Prop :=
  (List.finRange 5).map gen = [0x3b6a57b2#30, 0x26508e6d#30, 0x1ea119fa#30, 0x3d4233dd#30, 0x2a1462b3#30] ∧
  (List.finRange 5).map (fun i => (gen i).toNat) = [996825010, 642813549, 513874426, 1027748829, 705979059] ∧
  (List.finRange 5).map (fun i => (List.range 6).map fun p => (checksumGroup (gen i) p).toNat) =
    [[29, 22, 20, 21, 29, 18], [19, 5, 1, 3, 19, 13], [15, 10, 2, 6, 15, 26], [30, 20, 4, 12, 30, 29],
      [21, 1, 8, 24, 21, 19]]

/-- R61: `fromBits`, `toBits` and `mask` as functions of `MODE`. -/
def Obligations.WidthsOfEachDirection : Prop :=
  fromBits .eightToFive = 8 ∧ toBits .eightToFive = 5 ∧ groupMask .eightToFive = 31 ∧
    fromBits .fiveToEight = 5 ∧ toBits .fiveToEight = 8 ∧ groupMask .fiveToEight = 255

/-! ### Encoding and decoding -/

/-- R41, both directions of "encoding is the inverse on the ten constructors". -/
def Obligations.DecodeEncodeRoundTrip : Prop :=
  (∀ i : Instr, decode (encode i) = .command i) ∧ ∀ (w : Word) (i : Instr), decode w = .command i → encode i = w

/-- R36: the ten rows as the table has them, pairwise disjoint (the spec derives that from the table); a word is a
row's command iff `W & mask = match`, and the other bits are the operand's. -/
def Obligations.DecoderFollowsOpcodeTable : Prop :=
  opcodeTable =
    [⟨0x1000#16, 0xFFFF#16⟩, ⟨0x1100#16, 0xFF00#16⟩, ⟨0x1200#16, 0xFF00#16⟩, ⟨0x1300#16, 0xFF00#16⟩,
      ⟨0x1400#16, 0xFFFF#16⟩, ⟨0x1500#16, 0xFFFF#16⟩, ⟨0x1600#16, 0xFFFF#16⟩, ⟨0x2000#16, 0xFFFE#16⟩,
      ⟨0x2100#16, 0xFF00#16⟩, ⟨0x2200#16, 0xFFFE#16⟩] ∧
  (∀ (w : Word) (r q : OpcodeRow), r ∈ opcodeTable → q ∈ opcodeTable → w &&& r.mask = r.matchBits →
    w &&& q.mask = q.matchBits → r = q) ∧
  (∀ i : Instr, i.row ∈ opcodeTable) ∧
  ∀ (w : Word) (r : OpcodeRow), r ∈ opcodeTable →
    (w &&& r.mask = r.matchBits ↔
      ∃ i, decode w = .command i ∧ i.row = r ∧ w = r.matchBits ||| i.imm.setWidth 16)

/-- R38, R39: the illegal words are those of R39's list, the must-be-zero violations of R38 among them; 1032 words are
legal (the spec's own count); an illegal word changes no state and is answered with `E_ILLEGAL`, `N = 0`, `ERRVAL` the
whole word. -/
def Obligations.IllegalWordsAreAnsweredAndChangeNothing : Prop :=
  (∀ w : Word, (∃ why, decode w = .illegal why) ↔
    (w.toNat / 4096 ≠ 1 ∧ w.toNat / 4096 ≠ 2) ∨
    (w.toNat / 4096 = 1 ∧ 7 ≤ w.toNat / 256 % 16) ∨
    (w.toNat / 4096 = 2 ∧ 3 ≤ w.toNat / 256 % 16) ∨
    (w.toNat / 4096 = 1 ∧ w.toNat / 256 % 16 ∈ [0, 4, 5, 6] ∧ w.toNat % 256 ≠ 0) ∨
    (w.toNat / 4096 = 2 ∧ w.toNat / 256 % 16 ∈ [0, 2] ∧ w.toNat % 256 / 2 ≠ 0)) ∧
  (∃ why, decode 0x0000#16 = .illegal why) ∧ (∃ why, decode 0xFFFF#16 = .illegal why) ∧
  (∃ legal : List Word, legal.Nodup ∧ legal.length = 1032 ∧ ∀ w : Word, w ∈ legal ↔ ∃ i, decode w = .command i) ∧
  ∀ (w : Word) (why : Illegal), decode w = .illegal why → ∀ s : State,
    takeCommand w s = .next { s with responses := s.responses ++ [.error .illegal w] } ∧
      (Response.error .illegal w).err = 1#4 ∧ (Response.error .illegal w).count = 0 ∧
      (Response.error .illegal w).errVal = some w

/-- R46: the worked encodings, from assembly line (R44) to word, and the illegal words of the same table. -/
def Obligations.WorkedEncodings : Prop :=
  (Asm.line? "CK.INIT".toList).map encode = some 0x1000#16 ∧
  (Asm.line? "CK.SYM 28".toList).map encode = some 0x111C#16 ∧
  (Asm.line? "CK.SYM 0".toList).map encode = some 0x1100#16 ∧
  (Asm.line? "CK.SYM 32".toList).map encode = some 0x1120#16 ∧
  (∀ s : State, exec (.ckSym 32#8) s = .next { s with responses := s.responses ++ [.error .symbol 32#16] }) ∧
  ((Asm.line? "CK.HI 'a'".toList).map encode = some 0x1261#16 ∧ highPart 0x61#8 = 3#5) ∧
  ((Asm.line? "CK.LO 'a'".toList).map encode = some 0x1361#16 ∧ lowPart 0x61#8 = 1#5) ∧
  (Asm.line? "CK.VFY".toList).map encode = some 0x1400#16 ∧
  (Asm.line? "CK.FIN".toList).map encode = some 0x1500#16 ∧
  (Asm.line? "CK.RD".toList).map encode = some 0x1600#16 ∧
  (Asm.line? "RG.INIT 8TO5".toList).map encode = some 0x2000#16 ∧
  (Asm.line? "RG.INIT 5TO8".toList).map encode = some 0x2001#16 ∧
  (Asm.line? "RG.PUSH 0xFF".toList).map encode = some 0x21FF#16 ∧
  (Asm.line? "RG.FLUSH STRICT".toList).map encode = some 0x2200#16 ∧
  (Asm.line? "RG.FLUSH PAD".toList).map encode = some 0x2201#16 ∧
  [0x1000#16, 0x111C#16, 0x1100#16, 0x1120#16, 0x1261#16, 0x1361#16, 0x1400#16, 0x1500#16, 0x1600#16].map fieldsOf =
    [⟨1, 0, 0⟩, ⟨1, 1, 0x1C⟩, ⟨1, 1, 0⟩, ⟨1, 1, 0x20⟩, ⟨1, 2, 0x61⟩, ⟨1, 3, 0x61⟩, ⟨1, 4, 0⟩, ⟨1, 5, 0⟩, ⟨1, 6, 0⟩] ∧
  decode 0x0000#16 = .illegal .unassignedUnit ∧ decode 0x1401#16 = .illegal .mustBeZero ∧
  decode 0x2002#16 = .illegal .mustBeZero ∧ decode 0x1700#16 = .illegal .unassignedOperation ∧
  decode 0x2300#16 = .illegal .unassignedOperation

/-- R44: every command can be written as a line, its operand in decimal or by its name. -/
def Obligations.EveryCommandHasALine : Prop :=
  (∀ v : Byte,
    Asm.line? ("CK.SYM ".toList ++ Nat.toDigits 10 v.toNat) = some (.ckSym v) ∧
    Asm.line? ("CK.HI ".toList ++ Nat.toDigits 10 v.toNat) = some (.ckHi v) ∧
    Asm.line? ("CK.LO ".toList ++ Nat.toDigits 10 v.toNat) = some (.ckLo v) ∧
    Asm.line? ("RG.PUSH ".toList ++ Nat.toDigits 10 v.toNat) = some (.rgPush v)) ∧
  Asm.line? "CK.INIT".toList = some .ckInit ∧ Asm.line? "CK.VFY".toList = some .ckVfy ∧
  Asm.line? "CK.FIN".toList = some .ckFin ∧ Asm.line? "CK.RD".toList = some .ckRd ∧
  Asm.line? "RG.INIT 0".toList = some (.rgInit .eightToFive) ∧
  Asm.line? "RG.INIT 1".toList = some (.rgInit .fiveToEight) ∧
  Asm.line? "RG.FLUSH 0".toList = some (.rgFlush .strict) ∧ Asm.line? "RG.FLUSH 1".toList = some (.rgFlush .pad)

/-! ### Steps and the order of responses -/

/-- R4, R31: where a command word is presented next, a step is the meaning of the command it decodes to, at the state
that has taken the word; `withFetchWord` presents a word so. -/
def Obligations.StepRunsDecodedCommand : Prop :=
  ∀ (s : State) (w : Word) (i : Instr), decode w = .command i →
    (∀ rest, s.inputs = .command w :: rest → step s = exec i { s with inputs := rest }) ∧
    step (s.withFetchWord 16 w.toNat) = exec i s ∧ decodeTableWord 16 w.toNat = some i

/-- R93, R116: no step ends in a fault or a refusal. -/
def Obligations.EveryStepAnswersNext : Prop := ∀ s : State, ∃ t, step s = .next t

/-- R31: over any run of presented words, one response per command, in the order of the commands: the k-th response
is the answer to the k-th word by the state left by the words before it. -/
def Obligations.OneResponsePerCommandInOrder : Prop :=
  ∀ (ws : List Word) (s : State), ∃ t rs, run ws.length (s.presentWords ws) = .next t ∧
    t.responses = s.responses ++ rs ∧ rs.length = ws.length ∧ t.inputs = s.inputs ∧
    ∀ (k : Nat) (w : Word), ws[k]? = some w → ∃ u v r,
      run k (s.presentWords (ws.take k)) = .next u ∧ u.inputs = s.inputs ∧ u.responses = s.responses ++ rs.take k ∧
      takeCommand w u = .next v ∧ rs[k]? = some r ∧ v.responses = u.responses ++ [r]

/-! ### The checksum step -/

/-- R48: `ck_step` as the rule's arithmetic on numbers, in whichever order the five constants are taken. -/
def Obligations.CkStepFollowsPseudocode : Prop :=
  ∀ (chk : Residue) (v : Symbol) (order : List (Fin 5)), order.Perm [0, 1, 2, 3, 4] →
    (ckStep chk v).toNat =
      order.foldl
        (fun c i => if ((chk.toNat >>> 25) >>> i.val) &&& 1 = 1
          then c ^^^ [0x3b6a57b2, 0x26508e6d, 0x1ea119fa, 0x3d4233dd, 0x2a1462b3].getD i.val 0 else c)
        (((chk.toNat &&& 0x1ffffff) <<< 5) ^^^ v.toNat)

/-- R49, items 1 to 6. -/
def Obligations.CkStepProperties : Prop :=
  (∀ (chk : Residue) (v : Symbol), (ckStep chk v).toNat < 2 ^ 30) ∧
  (∀ chk : Residue, topSymbol chk = 0#5 ↔ chk.toNat < 2 ^ 25) ∧
  (∀ (chk : Residue) (v : Symbol), chk.toNat < 2 ^ 25 → (ckStep chk v).toNat = chk.toNat * 32 + v.toNat) ∧
  (∀ (a b : Residue) (v w : Symbol), ckStep (a ^^^ b) (v ^^^ w) = ckStep a v ^^^ ckStep b w) ∧
  (∀ (chk : Residue) (v : Symbol), ckStep chk v = ckStep chk 0#5 ^^^ v.setWidth 30) ∧
  (∀ v : Symbol, Function.Bijective fun chk => ckStep chk v) ∧
  (∀ c : Residue, ckStep c 0#5 = 0#30 ↔ c = 0#30) ∧
  ((∀ v : Symbol, ckStep 0#30 v = v.setWidth 30) ∧ ckStep 1#30 0#5 = 32#30 ∧
    ckStep 0x02000000#30 0#5 = gen 0 ∧ ckStep 0x04000000#30 0#5 = gen 1 ∧ ckStep 0x08000000#30 0#5 = gen 2 ∧
    ckStep 0x10000000#30 0#5 = gen 3 ∧ ckStep 0x20000000#30 0#5 = gen 4 ∧
    ckStep 0x3e000000#30 0#5 = 0x14cd914b#30 ∧ ckStep 0x3fffffff#30 31#5 = 0x2b326eb4#30 ∧
    ckStep 0x3fffffff#30 0#5 = 0x2b326eab#30 ∧ ckStep 0x1ffffff#30 0#5 = 0x3fffffe0#30) ∧
  ∀ a b : Residue, ∃ vs : List Symbol, vs.length = 6 ∧ absorbAll a vs = b

/-! ### The checksum-engine commands -/

/-- R50: `CK.INIT` sets `CHK` to 1, whatever it held, and changes nothing more. -/
def Obligations.CkInitStartsSession : Prop :=
  encode .ckInit = 0x1000#16 ∧
  (∀ s : State, exec .ckInit s = .next { s with chk := 1#30, responses := s.responses ++ [.ok .nothing] }) ∧
  ∀ s t : State, exec .ckInit s = .next t →
    exec .ckInit t = .next { t with responses := t.responses ++ [.ok .nothing] }

/-- R51: `CK.SYM v` absorbs `v` if it is a Symbol; else it fails with `E_SYMBOL` (code 2), `ERRVAL = IMM`, and `CHK`
is unchanged. -/
def Obligations.CkSymAbsorbsOrRefusesValue : Prop :=
  ∀ (v : Byte) (s : State),
    encode (.ckSym v) = 0x1100#16 ||| v.setWidth 16 ∧
    (v.toNat ≤ 31 → exec (.ckSym v) s =
      .next { s with chk := ckStep s.chk (BitVec.ofNat 5 v.toNat), responses := s.responses ++ [.ok .nothing] }) ∧
    (31 < v.toNat →
      exec (.ckSym v) s = .next { s with responses := s.responses ++ [.error .symbol (BitVec.ofNat 16 v.toNat)] } ∧
      ErrorCode.symbol.code = 2#4)

/-- R52: `CK.HI c` absorbs `c >> 5`, for every `c`; which values that can be, the case of a letter among them. -/
def Obligations.CkHiAbsorbsHighBits : Prop :=
  ∀ (c : Byte) (s : State),
    encode (.ckHi c) = 0x1200#16 ||| c.setWidth 16 ∧
    exec (.ckHi c) s =
      .next { s with chk := ckStep s.chk (BitVec.ofNat 5 (c.toNat >>> 5)), responses := s.responses ++ [.ok .nothing] } ∧
    (33 ≤ c.toNat → c.toNat ≤ 126 → (highPart c).toNat ∈ [1, 2, 3]) ∧
    (c.toNat < 32 → (highPart c).toNat = 0) ∧ (128 ≤ c.toNat → (highPart c).toNat ∈ [4, 5, 6, 7]) ∧
    (c = 0x41#8 → (highPart c).toNat = 2) ∧ (c = 0x61#8 → (highPart c).toNat = 3)

/-- R53: `CK.LO c` absorbs `c & 31`, for every `c`: the effect of `CK.SYM (c & 31)`, the same for characters that
differ only in bits 7 to 5. -/
def Obligations.CkLoAbsorbsLowBits : Prop :=
  ∀ (c : Byte) (s : State),
    encode (.ckLo c) = 0x1300#16 ||| c.setWidth 16 ∧
    exec (.ckLo c) s =
      .next { s with chk := ckStep s.chk (BitVec.ofNat 5 (c.toNat &&& 31)), responses := s.responses ++ [.ok .nothing] } ∧
    exec (.ckLo c) s = exec (.ckSym (c &&& 31#8)) s ∧
    ∀ e : Byte, e.toNat % 32 = c.toNat % 32 → exec (.ckLo e) s = exec (.ckLo c) s

/-- R54: `CK.VFY` answers 1 iff `CHK = 1`, writes no register, can be repeated, and answers 1 straight after `CK.INIT`
and after reset. -/
def Obligations.CkVfyAnswersWhetherResidueIsOne : Prop :=
  encode .ckVfy = 0x1400#16 ∧
  (∀ s : State, exec .ckVfy s =
    .next { s with responses := s.responses ++ [.ok (.valid (decide (s.chk = 1#30)))] }) ∧
  (Response.ok (.valid true)).outs = [1] ∧ (Response.ok (.valid false)).outs = [0] ∧
  (∀ s t : State, exec .ckInit s = .next t →
    exec .ckVfy t = .next { t with responses := t.responses ++ [.ok (.valid true)] }) ∧
  exec .ckVfy State.reset = .next { State.reset with responses := [.ok (.valid true)] } ∧
  ∀ (s t : State) (r : Response), exec .ckVfy s = .next t → t.responses = s.responses ++ [r] →
    exec .ckVfy t = .next { t with responses := t.responses ++ [r] }

/-- R55: `CK.FIN` answers the six groups of `m`, most significant first, and writes no register. With it the four
consequences that the spec derives itself: absorbing the groups gives 1 from every `CHK` (item 1), `CK.FIN` is
repeatable (item 2), after `CK.INIT` it answers the stated six (item 3), and only the last group differs from the
groups of `t` (item 4). -/
def Obligations.CkFinAnswersChecksum : Prop :=
  encode .ckFin = 0x1500#16 ∧
  (∀ s : State,
    let t := ckStep (ckStep (ckStep (ckStep (ckStep (ckStep s.chk 0#5) 0#5) 0#5) 0#5) 0#5) 0#5
    let m := t ^^^ 1#30
    let outs := [m.extractLsb' 25 5, m.extractLsb' 20 5, m.extractLsb' 15 5, m.extractLsb' 10 5, m.extractLsb' 5 5,
      m.extractLsb' 0 5]
    let r := Response.ok (.checksum (m.extractLsb' 25 5) (m.extractLsb' 20 5) (m.extractLsb' 15 5)
      (m.extractLsb' 10 5) (m.extractLsb' 5 5) (m.extractLsb' 0 5))
    exec .ckFin s = .next { s with responses := s.responses ++ [r] } ∧
    r.count = 6 ∧ r.outs = outs.map BitVec.toNat ∧
    r.outs = (List.range 6).map (fun p => (m.toNat >>> (5 * (5 - p))) &&& 31) ∧
    absorbAll s.chk outs = 1#30 ∧
    (∀ u, exec .ckFin s = .next u → exec .ckFin u = .next { u with responses := u.responses ++ [r] }) ∧
    (m.extractLsb' 25 5 = t.extractLsb' 25 5 ∧ m.extractLsb' 20 5 = t.extractLsb' 20 5 ∧
      m.extractLsb' 15 5 = t.extractLsb' 15 5 ∧ m.extractLsb' 10 5 = t.extractLsb' 10 5 ∧
      m.extractLsb' 5 5 = t.extractLsb' 5 5 ∧ m.extractLsb' 0 5 ≠ t.extractLsb' 0 5)) ∧
  ∀ s t : State, exec .ckInit s = .next t →
    exec .ckFin t = .next { t with responses := t.responses ++ [.ok (.checksum 29 22 20 21 29 19)] }

/-- R56: `CK.RD` answers `CHK`, writes no register, answers 1 after `CK.INIT` and after reset, and `CK.VFY` answers 1
exactly when it does. -/
def Obligations.CkRdAnswersResidue : Prop :=
  encode .ckRd = 0x1600#16 ∧
  (∀ s : State, exec .ckRd s = .next { s with responses := s.responses ++ [.ok (.residue s.chk)] }) ∧
  (∀ s : State, (Response.ok (.residue s.chk)).outs = [s.chk.toNat]) ∧
  (∀ s t : State, exec .ckInit s = .next t →
    exec .ckRd t = .next { t with responses := t.responses ++ [.ok (.residue 1#30)] }) ∧
  exec .ckRd State.reset = .next { State.reset with responses := [.ok (.residue 1#30)] } ∧
  ∀ s t u : State, exec .ckVfy s = .next t → exec .ckRd s = .next u →
    (t.responses = s.responses ++ [.ok (.valid true)] ↔ u.responses = s.responses ++ [.ok (.residue 1#30)])

/-! ### The regrouper commands -/

/-- R62: `RG.INIT d` clears `ACC` and `BITS`, sets `MODE` to `d`, discards leftover bits without an error, is
idempotent and leaves `CHK`; with `IMM[7:1]` not 0 the word is illegal; no other command changes `MODE`. -/
def Obligations.RgInitStartsSession : Prop :=
  encode (.rgInit .eightToFive) = 0x2000#16 ∧ encode (.rgInit .fiveToEight) = 0x2001#16 ∧
  (∀ (d : Direction) (s : State), exec (.rgInit d) s =
    .next { s with acc := 0#12, bits := 0#4, mode := d, responses := s.responses ++ [.ok .nothing] }) ∧
  (∀ (d : Direction) (s t : State), exec (.rgInit d) s = .next t →
    exec (.rgInit d) t = .next { t with responses := t.responses ++ [.ok .nothing] }) ∧
  (∀ w : Word, w.toNat / 256 = 0x20 → w.toNat % 256 / 2 ≠ 0 → ∃ why, decode w = .illegal why) ∧
  ∀ (i : Instr) (s t : State), exec i s = .next t → t.mode ≠ s.mode → i = .rgInit t.mode

/-- R63: `RG.PUSH v` fails with `E_RANGE` (code 3) when `v` uses more than `fromBits` bits, else it appends `v` and
emits every complete group, earliest first, the loop written out as its groups and its remainder; corner case 1. In the
states of R14 at most 12 bits are held and at most 2 groups emitted. The rule gives all 12 bits of `ACC`; those above
`BITS` no response depends on (`StaleBitsAreUnobservable`, log entry 15). -/
def Obligations.RgPushAppendsAndEmits : Prop :=
  ∀ (v : Byte) (s : State),
    encode (.rgPush v) = 0x2100#16 ||| v.setWidth 16 ∧
    (2 ^ fromBits s.mode ≤ v.toNat →
      exec (.rgPush v) s = .next { s with responses := s.responses ++ [.error .range (BitVec.ofNat 16 v.toNat)] } ∧
      s.mode = .fiveToEight ∧ 32 ≤ v.toNat ∧ ErrorCode.range.code = 3#4) ∧
    (v.toNat < 2 ^ fromBits s.mode →
      let a : BitVec 12 := BitVec.ofNat 12 ((s.acc.toNat <<< fromBits s.mode) ||| v.toNat)
      let b := s.bits.toNat + fromBits s.mode
      exec (.rgPush v) s = .next { s with
        acc := a
        bits := BitVec.ofNat 4 (b % toBits s.mode)
        responses := s.responses ++ [.ok (.groups ((List.range (b / toBits s.mode)).map fun k =>
          BitVec.ofNat 8 ((a.toNat >>> (b - (k + 1) * toBits s.mode)) &&& (2 ^ toBits s.mode - 1))))] } ∧
      (s.acc.toNat <<< fromBits s.mode) ||| v.toNat = (s.acc.toNat <<< fromBits s.mode) + v.toNat ∧
      (s.acc.toNat <<< fromBits s.mode) ||| v.toNat = (s.acc.toNat <<< fromBits s.mode) ^^^ v.toNat ∧
      (s.Inv → b ≤ 12 ∧ b / toBits s.mode ≤ 2))

/-- R64: how many groups one push emits and what it leaves, and the same for a session of `n` pushes. -/
def Obligations.GroupCountsOfPushAndSession : Prop :=
  (∀ (v : Byte) (s : State), s.Inv → v.toNat < 2 ^ fromBits s.mode → ∃ t gs, exec (.rgPush v) s = .next t ∧
    t.responses = s.responses ++ [.ok (.groups gs)] ∧ gs.length = (s.bits.toNat + fromBits s.mode) / toBits s.mode ∧
    gs.length ≤ 2 ∧ t.bits.toNat = (s.bits.toNat + fromBits s.mode) % toBits s.mode) ∧
  ∀ (d : Direction) (vs : List Byte) (s : State), (∀ v ∈ vs, v.toNat < 2 ^ fromBits d) →
    ∃ t rs, run (vs.length + 1) (s.present (.rgInit d :: vs.map .rgPush)) = .next t ∧
      t.responses = s.responses ++ rs ∧ (∀ r ∈ rs, r.err = 0#4) ∧ t.mode = d ∧
      t.bits.toNat = vs.length * fromBits d % toBits d ∧
      (rs.map Response.count).sum = vs.length * fromBits d / toBits d

/-- R65: `RG.FLUSH p`. With `p = 1` it cannot fail and emits the left-justified leftover bits, if there are any; with
`p = 0` it tests "illegal zero padding" first, then "non-zero padding", else drops the zero bits. On success `ACC` and
`BITS` are cleared and `MODE` is kept. Corner cases 1 and 6. With `IMM[7:1]` not 0 the word is illegal. In a state R14
rules out (`BITS >= toBits`) the rule says nothing (log entry 6), hence the premise. -/
def Obligations.RgFlushAppliesPolicy : Prop :=
  encode (.rgFlush .strict) = 0x2200#16 ∧ encode (.rgFlush .pad) = 0x2201#16 ∧
  ErrorCode.padZero.code = 4#4 ∧ ErrorCode.padNonzero.code = 5#4 ∧
  (∀ w : Word, w.toNat / 256 = 0x22 → w.toNat % 256 / 2 ≠ 0 → ∃ why, decode w = .illegal why) ∧
  ∀ s : State, s.Inv →
    let g : Byte := BitVec.ofNat 8 ((s.acc.toNat <<< (toBits s.mode - s.bits.toNat)) &&& (2 ^ toBits s.mode - 1))
    exec (.rgFlush .pad) s = .next { s with
      acc := 0#12, bits := 0#4
      responses := s.responses ++ [.ok (.groups (if 0 < s.bits.toNat then [g] else []))] } ∧
    (fromBits s.mode ≤ s.bits.toNat → exec (.rgFlush .strict) s =
      .next { s with responses := s.responses ++ [.error .padZero (BitVec.ofNat 16 s.bits.toNat)] }) ∧
    (s.bits.toNat < fromBits s.mode → g ≠ 0#8 → exec (.rgFlush .strict) s =
      .next { s with responses := s.responses ++ [.error .padNonzero (BitVec.ofNat 16 g.toNat)] }) ∧
    (s.bits.toNat < fromBits s.mode → g = 0#8 → exec (.rgFlush .strict) s =
      .next { s with acc := 0#12, bits := 0#4, responses := s.responses ++ [.ok (.groups [])] }) ∧
    (s.mode = .eightToFive → s.bits.toNat < fromBits s.mode) ∧
    g.toNat = leftover s * 2 ^ (toBits s.mode - s.bits.toNat) ∧ (g ≠ 0#8 ↔ leftover s ≠ 0)

/-- R67: every emitted group is below `2^toBits`; in `MODE = 0` every output is accepted by `CK.SYM`. -/
def Obligations.EmittedGroupsAreInRange : Prop :=
  ∀ (i : Instr) (s t : State) (gs : List Byte), exec i s = .next t → t.responses = s.responses ++ [.ok (.groups gs)] →
    ∀ g ∈ gs, g.toNat < 2 ^ toBits s.mode ∧
      (s.mode = .eightToFive → ∀ u : State, ∃ v, exec (.ckSym g) u = .next v ∧
        v.responses = u.responses ++ [.ok .nothing] ∧ v.chk = ckStep u.chk (BitVec.ofNat 5 g.toNat))

/-- R26: a session's groups, then its leftover bits, are the bitstream of its input, most significant bit first; a
final padded group is the leftover bits as its high bits, with zeros below. -/
def Obligations.SessionEmitsInputBitstream : Prop :=
  ∀ (d : Direction) (vs : List Byte) (s : State), (∀ v ∈ vs, v.toNat < 2 ^ fromBits d) →
    ∃ t rs, run (vs.length + 1) (s.present (.rgInit d :: vs.map .rgPush)) = .next t ∧
      t.responses = s.responses ++ rs ∧ t.mode = d ∧ t.chk = s.chk ∧ t.inputs = s.inputs ∧
      streamBits (fromBits d) (vs.map BitVec.toNat) =
        streamBits (toBits d) (rs.flatMap Response.outs) ++ bitsMsbFirst t.bits.toNat (leftover t) ∧
      ∀ (u : State) (g : Byte), exec (.rgFlush .pad) t = .next u → u.responses = t.responses ++ [.ok (.groups [g])] →
        bitsMsbFirst (toBits d) g.toNat =
          bitsMsbFirst t.bits.toNat (leftover t) ++ List.replicate (toBits d - t.bits.toNat) false

/-! ### Invariants and rules about the whole machine -/

/-- R14: the invariant holds after reset. -/
def Obligations.ResetMeetsRegrouperInvariant : Prop := State.reset.Inv

/-- R14: every step keeps `0 <= BITS < toBits(MODE)`, whatever is presented; R14's other items hold by the types. -/
def Obligations.EveryStepKeepsRegrouperInvariant : Prop :=
  ∀ s t : State, s.Inv → step s = .next t → t.Inv

/-- R20: two states that agree on `CHK`, `MODE`, `BITS` and `ACC[BITS-1:0]` respond identically to whatever is
presented, and go on agreeing. -/
def Obligations.StaleBitsAreUnobservable : Prop :=
  ∀ (n : Nat) (s s' : State), s.Inv → s'.Inv → SameVisible s s' → s.inputs = s'.inputs →
    ∃ t t' rs, run n s = .next t ∧ run n s' = .next t' ∧ t.responses = s.responses ++ rs ∧
      t'.responses = s'.responses ++ rs ∧ SameVisible t t' ∧ t.inputs = t'.inputs

/-- R22, the `w` columns: a command leaves every register its row does not write, and all that is presented. -/
def Obligations.CommandsWriteOnlyTheirColumns : Prop :=
  ∀ i : Instr, ∀ s : State, ∃ t r, exec i s = .next t ∧ t.responses = s.responses ++ [r] ∧ t.inputs = s.inputs ∧
    (i.writesChk = false → t.chk = s.chk) ∧
    (i.writesLeftover = false → t.acc = s.acc ∧ t.bits = s.bits) ∧ (i.writesMode = false → t.mode = s.mode)

/-- R22, the `r` columns: what a command answers and what it writes depends on its own unit's registers only. -/
def Obligations.UnitsShareNoState : Prop :=
  ∀ (i : Instr) (s s' : State),
    (i.side = .checksum → s.chk = s'.chk → ∃ t t' r, exec i s = .next t ∧ exec i s' = .next t' ∧
      t.responses = s.responses ++ [r] ∧ t'.responses = s'.responses ++ [r] ∧ t.chk = t'.chk) ∧
    (i.side = .regrouper → s.acc = s'.acc → s.bits = s'.bits → s.mode = s'.mode →
      ∃ t t' r, exec i s = .next t ∧ exec i s' = .next t' ∧
        t.responses = s.responses ++ [r] ∧ t'.responses = s'.responses ++ [r] ∧
        t.acc = t'.acc ∧ t.bits = t'.bits ∧ t.mode = t'.mode)

/-- R22: any `CK.*` command commutes with any `RG.*` command: the same final registers and the same two responses. -/
def Obligations.CommandsOfTheTwoUnitsCommute : Prop :=
  ∀ (i j : Instr) (s : State), i.side = .checksum → j.side = .regrouper →
    ∃ t u t' u' ri rj, exec i s = .next t ∧ exec j t = .next u ∧ exec j s = .next t' ∧ exec i t' = .next u' ∧
      u.responses = s.responses ++ [ri, rj] ∧ u'.responses = s.responses ++ [rj, ri] ∧
      u.chk = u'.chk ∧ u.acc = u'.acc ∧ u.bits = u'.bits ∧ u.mode = u'.mode

/-- R76, R77: in any list of commands each unit ends as if the other unit's commands had not been there, and each
command gets the response it would have got. -/
def Obligations.InterleavingIsInvisibleToEachUnit : Prop :=
  ∀ (is : List Instr) (s : State), ∃ t rs, run is.length (s.present is) = .next t ∧
    t.responses = s.responses ++ rs ∧ rs.length = is.length ∧
    ∀ side : Side, ∃ u,
      run (is.filter fun i => i.side = side).length (s.present (is.filter fun i => i.side = side)) = .next u ∧
      u.responses = s.responses ++ ((is.zip rs).filter fun p => p.1.side = side).map Prod.snd ∧
      (side = .checksum → u.chk = t.chk) ∧
      (side = .regrouper → u.acc = t.acc ∧ u.bits = t.bits ∧ u.mode = t.mode)

/-- R95: a step that answers an error writes no register and emits nothing; the response carries the code and the
value, packed as R42 says. -/
def Obligations.FailureChangesNothing : Prop :=
  ∀ (s t : State) (code : ErrorCode) (val : BitVec 16), step s = .next t →
    t.responses = s.responses ++ [.error code val] →
    t.chk = s.chk ∧ t.acc = s.acc ∧ t.bits = s.bits ∧ t.mode = s.mode ∧
      (Response.error code val).count = 0 ∧ (Response.error code val).outs = [] ∧
      (Response.error code val).err = code.code ∧ (Response.error code val).errVal = some val ∧
      (Response.error code val).word = code.code ++ 0#4 ++ val.setWidth 32

/-- R94, R96: the numbers of the codes; which command raises which error, exactly when, and with which value. The
premise is R14, without which `BITS` could be more than 7. -/
def Obligations.ErrorsArisePreciselyWhenStated : Prop :=
  (ErrorCode.illegal.code = 1#4 ∧ ErrorCode.symbol.code = 2#4 ∧ ErrorCode.range.code = 3#4 ∧
    ErrorCode.padZero.code = 4#4 ∧ ErrorCode.padNonzero.code = 5#4) ∧
  (∀ out : Output, (Response.ok out).err = 0#4) ∧
  ∀ (w : Word) (s : State), s.Inv → ∃ t r, takeCommand w s = .next t ∧ t.responses = s.responses ++ [r] ∧
    ∀ (code : ErrorCode) (val : BitVec 16), r = .error code val ↔
      (code = .illegal ∧ (∀ row ∈ opcodeTable, w &&& row.mask ≠ row.matchBits) ∧ val = w) ∨
      (code = .symbol ∧ ∃ v : Byte, decode w = .command (.ckSym v) ∧ 31 < v.toNat ∧ val = BitVec.ofNat 16 v.toNat) ∨
      (code = .range ∧ ∃ v : Byte, decode w = .command (.rgPush v) ∧ s.mode = .fiveToEight ∧ 31 < v.toNat ∧
        val = BitVec.ofNat 16 v.toNat) ∨
      (code = .padZero ∧ decode w = .command (.rgFlush .strict) ∧ fromBits s.mode ≤ s.bits.toNat ∧
        s.bits.toNat ∈ [5, 6, 7] ∧ val = BitVec.ofNat 16 s.bits.toNat) ∨
      (code = .padNonzero ∧ decode w = .command (.rgFlush .strict) ∧ s.bits.toNat < fromBits s.mode ∧
        (s.acc.toNat <<< (toBits s.mode - s.bits.toNat)) &&& (2 ^ toBits s.mode - 1) ≠ 0 ∧
        val = BitVec.ofNat 16 ((s.acc.toNat <<< (toBits s.mode - s.bits.toNat)) &&& (2 ^ toBits s.mode - 1)))

/-- R112: `MODE` changes only by `RG.INIT` or reset. -/
def Obligations.ModeChangesOnlyByInitOrReset : Prop :=
  ∀ s t : State, step s = .next t → t.mode ≠ s.mode →
    (∃ rest, s.inputs = .reset :: rest) ∨
      ∃ w rest, s.inputs = .command w :: rest ∧ decode w = .command (.rgInit t.mode)

/-- R10: `CHK` is written only by reset and `CK.INIT`, to 1, and by the absorbing commands, to `ck_step(CHK, v)`; no
command loads an arbitrary value into it. -/
def Obligations.ChkChangesOnlyByInitOrAbsorbing : Prop :=
  ∀ s t : State, step s = .next t → t.chk ≠ s.chk →
    (t.chk = 1#30 ∧ ((∃ rest, s.inputs = .reset :: rest) ∨
      ∃ w rest, s.inputs = .command w :: rest ∧ decode w = .command .ckInit)) ∨
    ∃ w rest c, s.inputs = .command w :: rest ∧
      ((decode w = .command (.ckSym c) ∧ c.toNat ≤ 31 ∧ t.chk = ckStep s.chk (BitVec.ofNat 5 c.toNat)) ∨
        (decode w = .command (.ckHi c) ∧ t.chk = ckStep s.chk (BitVec.ofNat 5 (c.toNat / 32))) ∨
        (decode w = .command (.ckLo c) ∧ t.chk = ckStep s.chk (BitVec.ofNat 5 (c.toNat % 32))))

/-! ### The response word -/

/-- R42, R43: the fields of the 40-bit response word, and `DATA` for each kind of output. -/
def Obligations.ResponseWordFields : Prop :=
  (∀ r : Response, r.word.extractLsb' 36 4 = r.err ∧ r.word.getLsbD 35 = false ∧
    (r.count ≤ 6 → (r.word.extractLsb' 32 3).toNat = r.count) ∧ r.word.extractLsb' 0 32 = r.data) ∧
  (∀ (code : ErrorCode) (val : BitVec 16), (Response.error code val).data.toNat = val.toNat ∧
    (Response.error code val).count = 0 ∧ (Response.error code val).err ≠ 0#4) ∧
  (∀ out : Output, (Response.ok out).err = 0#4) ∧
  ((Response.ok .nothing).count = 0 ∧ (Response.ok .nothing).data = 0#32) ∧
  (∀ b : Bool, (Response.ok (.valid b)).count = 1 ∧ (Response.ok (.valid b)).data.getLsbD 0 = b ∧
    (Response.ok (.valid b)).data.extractLsb' 1 31 = 0#31) ∧
  (∀ s0 s1 s2 s3 s4 s5 : Symbol, ∀ r, r = Response.ok (.checksum s0 s1 s2 s3 s4 s5) →
    r.count = 6 ∧ r.data.extractLsb' 30 2 = 0#2 ∧
    r.data.extractLsb' 25 5 = s0 ∧ r.data.extractLsb' 20 5 = s1 ∧ r.data.extractLsb' 15 5 = s2 ∧
    r.data.extractLsb' 10 5 = s3 ∧ r.data.extractLsb' 5 5 = s4 ∧ r.data.extractLsb' 0 5 = s5) ∧
  (∀ chk : Residue, (Response.ok (.residue chk)).count = 1 ∧
    (Response.ok (.residue chk)).data.extractLsb' 0 30 = chk ∧
    (Response.ok (.residue chk)).data.extractLsb' 30 2 = 0#2) ∧
  ∀ (gs : List Byte) (k : Nat), gs.length ≤ 2 → (Response.ok (.groups gs)).count = gs.length ∧
    (Response.ok (.groups gs)).data.extractLsb' (8 * k) 8 = gs.getD k 0#8

/-! ### D0's functions through the machine -/

/-- R71: `.EXPAND` is `2k + 1` commands that absorb `expand(prefix)`; none of them can fail. -/
def Obligations.ExpandAbsorbsPrefix : Prop :=
  ∀ (chars : List Byte) (s : State),
    Reference.expand chars =
      chars.map (fun c => BitVec.ofNat 5 (c.toNat >>> 5)) ++ [0#5] ++
        chars.map (fun c => BitVec.ofNat 5 (c.toNat &&& 31)) ∧
    (Pseudo.expand chars).expansion = chars.map .ckHi ++ [.ckSym 0#8] ++ chars.map .ckLo ∧
    (Pseudo.expand chars).expansion.length = 2 * chars.length + 1 ∧
    run (2 * chars.length + 1) (s.present (Pseudo.expand chars).expansion) = .next { s with
      chk := absorbAll s.chk (Reference.expand chars)
      responses := s.responses ++ List.replicate (2 * chars.length + 1) (.ok .nothing) }

/-- R72: `.RESIDUE` computes `residue`, or fails at the first value above 31; the residue is compositional, and the
reading commands do not disturb it. -/
def Obligations.ResidueSequenceComputesResidue : Prop :=
  (∀ values : List Byte, (Pseudo.residue values).expansion = [.ckInit] ++ values.map .ckSym ++ [.ckRd]) ∧
  (∀ (vs : List Symbol) (s : State), ∃ t rs,
    run (vs.length + 2) (s.present (Pseudo.residue (vs.map fun v => v.setWidth 8)).expansion) = .next t ∧
      t.responses = s.responses ++ rs ∧ hostResult rs = .ok [(vs.foldl ckStep 1#30).toNat] ∧
      rs.getLast? = some (.ok (.residue (vs.foldl ckStep 1#30))) ∧ t.chk = vs.foldl ckStep 1#30) ∧
  (∀ (vs : List Symbol) (bad : Byte) (rest : List Byte) (s : State), 31 < bad.toNat → ∃ t rs,
    run (vs.length + rest.length + 3)
        (s.present (Pseudo.residue ((vs.map fun v => v.setWidth 8) ++ bad :: rest)).expansion) = .next t ∧
      t.responses = s.responses ++ rs ∧ hostResult rs = .error (.symbol, BitVec.ofNat 16 bad.toNat)) ∧
  (∀ (chk : Residue) (vs ws : List Symbol), absorbAll chk (vs ++ ws) = absorbAll (absorbAll chk vs) ws) ∧
  ∀ s : State, ∃ t u, exec .ckRd s = .next t ∧ exec .ckVfy s = .next u ∧ t.chk = s.chk ∧ u.chk = s.chk

/-- R73: `.VERIFY` answers 1 iff `residue(expand(prefix) ‖ data) = 1`, else 0, for data of any length. -/
def Obligations.VerifySequenceAnswersVerify : Prop :=
  (∀ chars data : List Byte, (Pseudo.verify chars data).expansion =
    [.ckInit] ++ (Pseudo.expand chars).expansion ++ data.map .ckSym ++ [.ckVfy]) ∧
  ∀ (chars : List Byte) (data : List Symbol) (s : State), ∃ t rs,
    run (2 * chars.length + data.length + 3)
        (s.present (Pseudo.verify chars (data.map fun v => v.setWidth 8)).expansion) = .next t ∧
      t.responses = s.responses ++ rs ∧
      rs.getLast? = some (.ok (.valid (decide ((Reference.expand chars ++ data).foldl ckStep 1#30 = 1#30)))) ∧
      hostResult rs = .ok [if (Reference.expand chars ++ data).foldl ckStep 1#30 = 1#30 then 1 else 0]

/-- R74: `.CREATE` answers the checksum of the prefix and the data, and `.VERIFY` of the data with that checksum
answers 1, as does going on in the same session. -/
def Obligations.CreatedChecksumVerifies : Prop :=
  (∀ chars data : List Byte, (Pseudo.create chars data).expansion =
    [.ckInit] ++ (Pseudo.expand chars).expansion ++ data.map .ckSym ++ [.ckFin]) ∧
  ∀ (chars : List Byte) (data : List Symbol) (s : State), ∃ t rs, ∃ ks : List Symbol,
    run (2 * chars.length + data.length + 3)
        (s.present (Pseudo.create chars (data.map fun v => v.setWidth 8)).expansion) = .next t ∧
      t.responses = s.responses ++ rs ∧ hostResult rs = .ok (ks.map BitVec.toNat) ∧
      ks.map BitVec.toNat = (List.range 6).map (fun p =>
        (((Reference.expand chars ++ data ++ List.replicate 6 0#5).foldl ckStep 1#30 ^^^ 1#30).toNat
          >>> (5 * (5 - p))) &&& 31) ∧
      (∀ s' : State, ∃ u rs',
        run (2 * chars.length + data.length + 9)
            (s'.present (Pseudo.verify chars ((data ++ ks).map fun v => v.setWidth 8)).expansion) = .next u ∧
          u.responses = s'.responses ++ rs' ∧ hostResult rs' = .ok [1]) ∧
      ∃ u rs', run 7 (t.present (ks.map (fun k => Instr.ckSym (k.setWidth 8)) ++ [.ckVfy])) = .next u ∧
        u.responses = t.responses ++ rs' ∧ hostResult rs' = .ok [1]

/-- R55 item 1: from every state, `CK.FIN`, then `CK.SYM` of its six outputs, then `CK.VFY` answers 1. -/
def Obligations.ChecksumChecksItself : Prop :=
  ∀ s : State, ∃ t s0 s1 s2 s3 s4 s5, exec .ckFin s = .next t ∧
    t.responses = s.responses ++ [.ok (.checksum s0 s1 s2 s3 s4 s5)] ∧
    run 7 (t.present ([s0, s1, s2, s3, s4, s5].map (fun k => Instr.ckSym (k.setWidth 8)) ++ [.ckVfy])) =
      .next { t with
        chk := 1#30
        responses := t.responses ++ List.replicate 6 (.ok .nothing) ++ [.ok (.valid true)] }

/-- R58: a sequence of Symbols that leaves `CHK = 1` no longer does with one Symbol replaced by another, and `CK.VFY`
says so. -/
def Obligations.SingleSubstitutionIsDetected : Prop :=
  ∀ (s : State) (vs ws : List Symbol) (a b : Symbol), a ≠ b →
    ∃ t u, run (vs.length + ws.length + 2) (s.present
        ((vs ++ a :: ws).map (fun v => Instr.ckSym (v.setWidth 8)) ++ [.ckVfy])) = .next t ∧
      run (vs.length + ws.length + 2) (s.present
        ((vs ++ b :: ws).map (fun v => Instr.ckSym (v.setWidth 8)) ++ [.ckVfy])) = .next u ∧
      (t.chk = 1#30 → t.responses.getLast? = some (.ok (.valid true)) ∧ u.chk ≠ 1#30 ∧
        u.responses.getLast? = some (.ok (.valid false)))

/-- R75 (with R66): `.CONVERT` gives the result of D0's `convert` with its unbounded accumulator, outputs or error, and
the stated lengths on success; `CHK` is not touched. -/
def Obligations.ConvertSequenceComputesConvert : Prop :=
  (∀ (d : Direction) (p : Padding) (vs : List Byte),
    (Pseudo.convert d p vs).expansion = [.rgInit d] ++ vs.map .rgPush ++ [.rgFlush p]) ∧
  ∀ (d : Direction) (p : Padding) (vs : List Byte) (s : State), ∃ t rs,
    run (vs.length + 2) (s.present (Pseudo.convert d p vs).expansion) = .next t ∧
      t.responses = s.responses ++ rs ∧ t.chk = s.chk ∧ t.inputs = s.inputs ∧
      hostResult rs =
        (match Reference.convert (vs.map BitVec.toNat) (fromBits d) (toBits d) p.bit with
          | .ok outs => .ok outs
          | .error e => .error (errorOfConvert e)) ∧
      ∀ outs, Reference.convert (vs.map BitVec.toNat) (fromBits d) (toBits d) p.bit = .ok outs →
        outs.length =
          match p with
          | .pad => (vs.length * fromBits d + toBits d - 1) / toBits d
          | .strict => vs.length * fromBits d / toBits d

/-- R69: the 8-to-5 padded conversion of any bytes, fed to the 5-to-8 strict conversion, succeeds and gives the bytes
back. -/
def Obligations.ConversionRoundTrips : Prop :=
  ∀ (bytes : List Byte) (s : State), ∃ t rs syms,
    run (bytes.length + 2) (s.present (Pseudo.convert .eightToFive .pad bytes).expansion) = .next t ∧
      t.responses = s.responses ++ rs ∧ hostResult rs = .ok (syms.map BitVec.toNat) ∧
      syms.length = (8 * bytes.length + 4) / 5 ∧
      ∃ u rs', run (syms.length + 2) (t.present (Pseudo.convert .fiveToEight .strict syms).expansion) = .next u ∧
        u.responses = t.responses ++ rs' ∧ hostResult rs' = .ok (bytes.map BitVec.toNat)
end

