-- ==== Sys2Proof/Laws/Decode.lean ====
section
/-! SUPPORT. The decoder (R41) against the checks on a word's fields (R38, R39) of WellFormed.lean, and the fields of
an encoded command. -/

namespace Sys2Proof

theorem decodeBare_isSome (imm : BitVec 8) (i : Instr) : (decodeBare imm i).instr?.isSome = (imm == 0) := by
  unfold decodeBare; split <;> simp_all [Decoded.instr?]

theorem decodeBit_isSome (imm : BitVec 8) (mk : Bool → Instr) :
    (decodeBit imm mk).instr?.isSome = (imm.extractLsb' 1 7 == 0) := by
  unfold decodeBit; split <;> simp_all [Decoded.instr?]

theorem decodeChecksum_isSome (imm : BitVec 8) (sub : BitVec 4) :
    (decodeChecksum sub imm).instr?.isSome = Fields.wellFormed ⟨1, sub, imm⟩ := by
  simp only [decodeChecksum, Fields.wellFormed, Fields.unitAssigned, Fields.operationAssigned, Fields.mustBeZeroHeld]
  match sub with
  | ⟨⟨k, hk⟩⟩ => interval_cases k <;> simp [decodeBare_isSome] <;> rfl

theorem decodeRegrouper_isSome (imm : BitVec 8) (sub : BitVec 4) :
    (decodeRegrouper sub imm).instr?.isSome = Fields.wellFormed ⟨2, sub, imm⟩ := by
  simp only [decodeRegrouper, Fields.wellFormed, Fields.unitAssigned, Fields.operationAssigned,
    Fields.mustBeZeroHeld]
  match sub with
  | ⟨⟨k, hk⟩⟩ => interval_cases k <;> simp [decodeBit_isSome] <;> rfl

/-- The decoder accepts exactly the words whose fields pass the three checks. -/
theorem decode_isSome_iff_wellFormed (w : Word) : (decode w).instr?.isSome = (fieldsOf w).wellFormed := by
  unfold decode
  obtain ⟨op, sub, imm⟩ := fieldsOf w
  unfold decodeFields
  by_cases h1 : op = 1
  · subst h1; simpa using decodeChecksum_isSome imm sub
  · by_cases h2 : op = 2
    · subst h2; simpa using decodeRegrouper_isSome imm sub
    · simp_all [Fields.wellFormed, Fields.unitAssigned, Decoded.instr?]

/-- The fields of an encoded command: its row's `OP` and `SUB`, and its operand whole. -/
theorem fieldsOf_encode (i : Instr) :
    fieldsOf (encode i) = ⟨i.row.matchBits.extractLsb' 12 4, i.row.matchBits.extractLsb' 8 4, i.imm⟩ := by
  cases i with
  | ckSym v => revert v; decide +kernel
  | ckHi v => revert v; decide +kernel
  | ckLo v => revert v; decide +kernel
  | rgPush v => revert v; decide +kernel
  | rgInit d => cases d <;> decide
  | rgFlush p => cases p <;> decide
  | _ => decide

/-- A word is its fields. -/
theorem word_eq_fields (w : Word) : (fieldsOf w).op ++ (fieldsOf w).sub ++ (fieldsOf w).imm = w := by
  apply BitVec.eq_of_toNat_eq
  have := w.isLt
  simp only [fieldsOf, BitVec.toNat_append, BitVec.extractLsb'_toNat, Nat.shiftRight_eq_div_pow]
  rw [← Nat.shiftLeft_add_eq_or_of_lt (by omega), ← Nat.shiftLeft_add_eq_or_of_lt (by omega), Nat.shiftLeft_eq,
    Nat.shiftLeft_eq]
  omega

theorem fieldsOf_injective {w w' : Word} (h : fieldsOf w = fieldsOf w') : w = w' := by
  rw [← word_eq_fields w, ← word_eq_fields w', h]

/-- R35, as arithmetic on the word's number. -/
theorem fields_toNat (w : Word) :
    (fieldsOf w).op.toNat = w.toNat / 4096 ∧ (fieldsOf w).sub.toNat = w.toNat / 256 % 16 ∧
      (fieldsOf w).imm.toNat = w.toNat % 256 := by
  have := w.isLt
  simp only [fieldsOf, BitVec.extractLsb'_toNat, Nat.shiftRight_eq_div_pow]
  refine ⟨?_, ?_, ?_⟩
  all_goals norm_num
  all_goals omega

theorem decodeBare_eq {imm : BitVec 8} {i j : Instr} (h : decodeBare imm i = .command j) : imm = 0#8 ∧ i = j := by
  unfold decodeBare at h; split at h <;> simp_all

theorem decodeBit_eq {imm : BitVec 8} {mk : Bool → Instr} {j : Instr} (h : decodeBit imm mk = .command j) :
    (imm = 0#8 ∧ mk false = j) ∨ (imm = 1#8 ∧ mk true = j) := by
  unfold decodeBit at h; split at h
  · rename_i h0
    have key : ∀ imm : BitVec 8, imm.extractLsb' 1 7 = 0#7 →
        (imm = 0#8 ∧ imm.getLsbD 0 = false) ∨ (imm = 1#8 ∧ imm.getLsbD 0 = true) := by decide +kernel
    rcases key imm h0 with ⟨h1, h2⟩ | ⟨h1, h2⟩ <;> rw [h2] at h <;> cases h <;> simp [h1]
  · cases h

/-- What a command decodes from: its row's `OP` and `SUB`, and its operand. -/
theorem decodeFields_eq {f : Fields} {i : Instr} (h : decodeFields f = .command i) :
    f = ⟨i.row.matchBits.extractLsb' 12 4, i.row.matchBits.extractLsb' 8 4, i.imm⟩ := by
  obtain ⟨op, sub, imm⟩ := f
  unfold decodeFields decodeChecksum decodeRegrouper at h
  simp only at h
  repeat' split at h
  all_goals first
    | (cases h; done)
    | (cases h; simp_all [Instr.row, Instr.imm])
    | (obtain ⟨h1, rfl⟩ := decodeBare_eq h; simp_all [Instr.row, Instr.imm])
    | (rcases decodeBit_eq h with ⟨h1, rfl⟩ | ⟨h1, rfl⟩ <;>
        simp_all [Instr.row, Instr.imm, Direction.ofBit, Direction.bit, Padding.ofBit, Padding.bit])

end Sys2Proof
end

