-- ==== Sys2Proof/Laws/State.lean ====
section
/-! SUPPORT. One lemma per field of State and per shared operation, true by unfolding, so that no later proof
unfolds a record update. -/

namespace Sys2Proof.Machine

@[simp] theorem State.reset_chk : State.reset.chk = 1#30 := rfl
@[simp] theorem State.reset_acc : State.reset.acc = 0#12 := rfl
@[simp] theorem State.reset_bits : State.reset.bits = 0#4 := rfl
@[simp] theorem State.reset_mode : State.reset.mode = .eightToFive := rfl
@[simp] theorem State.reset_inputs : State.reset.inputs = [] := rfl
@[simp] theorem State.reset_responses : State.reset.responses = [] := rfl

@[simp] theorem State.setChk_chk (s : State) (x : Residue) : (s.setChk x).chk = x := rfl
@[simp] theorem State.setChk_acc (s : State) (x : Residue) : (s.setChk x).acc = s.acc := rfl
@[simp] theorem State.setChk_bits (s : State) (x : Residue) : (s.setChk x).bits = s.bits := rfl
@[simp] theorem State.setChk_mode (s : State) (x : Residue) : (s.setChk x).mode = s.mode := rfl
@[simp] theorem State.setChk_inputs (s : State) (x : Residue) : (s.setChk x).inputs = s.inputs := rfl
@[simp] theorem State.setChk_responses (s : State) (x : Residue) : (s.setChk x).responses = s.responses := rfl

@[simp] theorem State.setLeftover_chk (s : State) (x : BitVec 12) (y : BitVec 4) :
    (s.setLeftover x y).chk = s.chk := rfl
@[simp] theorem State.setLeftover_acc (s : State) (x : BitVec 12) (y : BitVec 4) : (s.setLeftover x y).acc = x := rfl
@[simp] theorem State.setLeftover_bits (s : State) (x : BitVec 12) (y : BitVec 4) :
    (s.setLeftover x y).bits = y := rfl
@[simp] theorem State.setLeftover_mode (s : State) (x : BitVec 12) (y : BitVec 4) :
    (s.setLeftover x y).mode = s.mode := rfl
@[simp] theorem State.setLeftover_inputs (s : State) (x : BitVec 12) (y : BitVec 4) :
    (s.setLeftover x y).inputs = s.inputs := rfl
@[simp] theorem State.setLeftover_responses (s : State) (x : BitVec 12) (y : BitVec 4) :
    (s.setLeftover x y).responses = s.responses := rfl

@[simp] theorem State.setMode_chk (s : State) (x : Direction) : (s.setMode x).chk = s.chk := rfl
@[simp] theorem State.setMode_acc (s : State) (x : Direction) : (s.setMode x).acc = s.acc := rfl
@[simp] theorem State.setMode_bits (s : State) (x : Direction) : (s.setMode x).bits = s.bits := rfl
@[simp] theorem State.setMode_mode (s : State) (x : Direction) : (s.setMode x).mode = x := rfl
@[simp] theorem State.setMode_inputs (s : State) (x : Direction) : (s.setMode x).inputs = s.inputs := rfl
@[simp] theorem State.setMode_responses (s : State) (x : Direction) : (s.setMode x).responses = s.responses := rfl

@[simp] theorem State.deliver_chk (s : State) (r : Response) : (s.deliver r).chk = s.chk := rfl
@[simp] theorem State.deliver_acc (s : State) (r : Response) : (s.deliver r).acc = s.acc := rfl
@[simp] theorem State.deliver_bits (s : State) (r : Response) : (s.deliver r).bits = s.bits := rfl
@[simp] theorem State.deliver_mode (s : State) (r : Response) : (s.deliver r).mode = s.mode := rfl
@[simp] theorem State.deliver_inputs (s : State) (r : Response) : (s.deliver r).inputs = s.inputs := rfl
@[simp] theorem State.deliver_responses (s : State) (r : Response) :
    (s.deliver r).responses = s.responses ++ [r] := rfl

@[simp] theorem State.ok_chk (s : State) (o : Output) : (s.ok o).chk = s.chk := rfl
@[simp] theorem State.ok_acc (s : State) (o : Output) : (s.ok o).acc = s.acc := rfl
@[simp] theorem State.ok_bits (s : State) (o : Output) : (s.ok o).bits = s.bits := rfl
@[simp] theorem State.ok_mode (s : State) (o : Output) : (s.ok o).mode = s.mode := rfl
@[simp] theorem State.ok_inputs (s : State) (o : Output) : (s.ok o).inputs = s.inputs := rfl
@[simp] theorem State.ok_responses (s : State) (o : Output) : (s.ok o).responses = s.responses ++ [.ok o] := rfl

@[simp] theorem State.fail_chk (s : State) (c : ErrorCode) (v : BitVec 16) : (s.fail c v).chk = s.chk := rfl
@[simp] theorem State.fail_acc (s : State) (c : ErrorCode) (v : BitVec 16) : (s.fail c v).acc = s.acc := rfl
@[simp] theorem State.fail_bits (s : State) (c : ErrorCode) (v : BitVec 16) : (s.fail c v).bits = s.bits := rfl
@[simp] theorem State.fail_mode (s : State) (c : ErrorCode) (v : BitVec 16) : (s.fail c v).mode = s.mode := rfl
@[simp] theorem State.fail_inputs (s : State) (c : ErrorCode) (v : BitVec 16) : (s.fail c v).inputs = s.inputs := rfl
@[simp] theorem State.fail_responses (s : State) (c : ErrorCode) (v : BitVec 16) :
    (s.fail c v).responses = s.responses ++ [.error c v] := rfl

@[simp] theorem State.failIllegal_chk (s : State) (w : Word) : (s.failIllegal w).chk = s.chk := rfl
@[simp] theorem State.failIllegal_acc (s : State) (w : Word) : (s.failIllegal w).acc = s.acc := rfl
@[simp] theorem State.failIllegal_bits (s : State) (w : Word) : (s.failIllegal w).bits = s.bits := rfl
@[simp] theorem State.failIllegal_mode (s : State) (w : Word) : (s.failIllegal w).mode = s.mode := rfl
@[simp] theorem State.failIllegal_inputs (s : State) (w : Word) : (s.failIllegal w).inputs = s.inputs := rfl
@[simp] theorem State.failIllegal_responses (s : State) (w : Word) :
    (s.failIllegal w).responses = s.responses ++ [.error .illegal w] := rfl

@[simp] theorem State.takeReset_chk (s : State) : s.takeReset.chk = 1#30 := rfl
@[simp] theorem State.takeReset_acc (s : State) : s.takeReset.acc = 0#12 := rfl
@[simp] theorem State.takeReset_bits (s : State) : s.takeReset.bits = 0#4 := rfl
@[simp] theorem State.takeReset_mode (s : State) : s.takeReset.mode = .eightToFive := rfl
@[simp] theorem State.takeReset_inputs (s : State) : s.takeReset.inputs = s.inputs := rfl
@[simp] theorem State.takeReset_responses (s : State) : s.takeReset.responses = s.responses := rfl

@[simp] theorem State.withInputs_chk (s : State) (es : List Input) : (s.withInputs es).chk = s.chk := rfl
@[simp] theorem State.withInputs_acc (s : State) (es : List Input) : (s.withInputs es).acc = s.acc := rfl
@[simp] theorem State.withInputs_bits (s : State) (es : List Input) : (s.withInputs es).bits = s.bits := rfl
@[simp] theorem State.withInputs_mode (s : State) (es : List Input) : (s.withInputs es).mode = s.mode := rfl
@[simp] theorem State.withInputs_inputs (s : State) (es : List Input) : (s.withInputs es).inputs = es := rfl
@[simp] theorem State.withInputs_responses (s : State) (es : List Input) :
    (s.withInputs es).responses = s.responses := rfl

@[simp] theorem State.absorb_chk (s : State) (v : Symbol) : (s.absorb v).chk = ckStep s.chk v := rfl
@[simp] theorem State.absorb_acc (s : State) (v : Symbol) : (s.absorb v).acc = s.acc := rfl
@[simp] theorem State.absorb_bits (s : State) (v : Symbol) : (s.absorb v).bits = s.bits := rfl
@[simp] theorem State.absorb_mode (s : State) (v : Symbol) : (s.absorb v).mode = s.mode := rfl
@[simp] theorem State.absorb_inputs (s : State) (v : Symbol) : (s.absorb v).inputs = s.inputs := rfl
@[simp] theorem State.absorb_responses (s : State) (v : Symbol) :
    (s.absorb v).responses = s.responses ++ [.ok .nothing] := rfl

@[simp] theorem State.append_chk (s : State) (v : Byte) : (s.append v).chk = s.chk := rfl
@[simp] theorem State.append_acc (s : State) (v : Byte) : (s.append v).acc = pushBits s.acc s.mode v := rfl
@[simp] theorem State.append_mode (s : State) (v : Byte) : (s.append v).mode = s.mode := rfl
@[simp] theorem State.append_inputs (s : State) (v : Byte) : (s.append v).inputs = s.inputs := rfl

@[simp] theorem State.endSession_chk (s : State) (gs : List Byte) : (s.endSession gs).chk = s.chk := rfl
@[simp] theorem State.endSession_acc (s : State) (gs : List Byte) : (s.endSession gs).acc = 0#12 := rfl
@[simp] theorem State.endSession_bits (s : State) (gs : List Byte) : (s.endSession gs).bits = 0#4 := rfl
@[simp] theorem State.endSession_mode (s : State) (gs : List Byte) : (s.endSession gs).mode = s.mode := rfl
@[simp] theorem State.endSession_inputs (s : State) (gs : List Byte) : (s.endSession gs).inputs = s.inputs := rfl
@[simp] theorem State.endSession_responses (s : State) (gs : List Byte) :
    (s.endSession gs).responses = s.responses ++ [.ok (.groups gs)] := rfl

@[simp] theorem State.idle_eq (s : State) : s.idle = s := rfl

end Sys2Proof.Machine
end

