-- ==== Sys2Proof/Laws/Ops.lean ====
section
/-! SUPPORT. What each shared operation does, said once: the checksum step (40_checksum_engine.md R48, R49), the
emission of groups (41_bit_regrouper.md R63, R64) and the final group (R65). -/

namespace Sys2Proof.Machine

/-! ### The checksum step -/

theorem genTerm_xor (x y : Symbol) (i : Fin 5) : genTerm (x ^^^ y) i = genTerm x i ^^^ genTerm y i := by
  unfold genTerm
  rw [BitVec.getLsbD_xor]
  cases x.getLsbD i <;> cases y.getLsbD i <;> simp

theorem topSymbol_xor (a b : Residue) : topSymbol (a ^^^ b) = topSymbol a ^^^ topSymbol b := by
  unfold topSymbol
  rw [BitVec.ushiftRight_xor_distrib, BitVec.setWidth_xor]

/-- The Symbol absorbed enters at the bottom, beside what the residue alone gives. -/
theorem ckStep_eq (chk : Residue) (v : Symbol) : ckStep chk v = ckStep chk 0#5 ^^^ v.setWidth 30 := by
  simp only [ckStep, BitVec.setWidth_zero, BitVec.xor_zero]
  ac_rfl

theorem ckStep_zero_xor (a b : Residue) : ckStep (a ^^^ b) 0#5 = ckStep a 0#5 ^^^ ckStep b 0#5 := by
  have h : ((a ^^^ b) &&& 0x1ffffff#30) <<< 5 = ((a &&& 0x1ffffff#30) <<< 5) ^^^ ((b &&& 0x1ffffff#30) <<< 5) := by
    rw [← BitVec.shiftLeft_xor_distrib]; congr 1; ext k hk; simp [Bool.and_xor_distrib_right]
  simp only [ckStep, topSymbol_xor, genTerm_xor, h, BitVec.setWidth_zero, BitVec.xor_zero]
  ac_rfl

theorem shiftLeft_xor_eq_add (a : Nat) {i b : Nat} (hb : b < 2 ^ i) : (a <<< i) ^^^ b = a * 2 ^ i + b := by
  apply Nat.eq_of_testBit_eq
  intro j
  rw [Nat.testBit_xor, Nat.testBit_shiftLeft, Nat.mul_comm, Nat.testBit_two_pow_mul_add a hb]
  by_cases hj : j < i
  · simp [hj, Nat.not_le.mpr hj]
  · have : b.testBit j = false := Nat.testBit_lt_two_pow (lt_of_lt_of_le hb (Nat.pow_le_pow_right (by omega) (by omega)))
    simp [hj, this, Nat.not_lt.mp hj]

/-- With `top = 0` nothing is folded back: the residue moves up one Symbol. -/
theorem ckStep_of_lt (chk : Residue) (v : Symbol) (h : chk.toNat < 2 ^ 25) :
    (ckStep chk v).toNat = chk.toNat * 32 + v.toNat := by
  have htop : topSymbol chk = 0#5 := by
    apply BitVec.eq_of_toNat_eq
    simp only [topSymbol, BitVec.toNat_setWidth, BitVec.toNat_ushiftRight, Nat.shiftRight_eq_div_pow,
      Nat.div_eq_of_lt h]
    rfl
  have hz : ∀ i, genTerm 0#5 i = 0#30 := by decide
  have hmask : chk.toNat &&& 0x1ffffff % 2 ^ 30 = chk.toNat := by
    rw [show (0x1ffffff % 2 ^ 30 : Nat) = 2 ^ 25 - 1 from rfl, Nat.and_two_pow_sub_one_eq_mod, Nat.mod_eq_of_lt h]
  have hv := v.isLt
  simp only [ckStep, htop, hz, BitVec.xor_zero, BitVec.toNat_xor, BitVec.toNat_shiftLeft, BitVec.toNat_and,
    BitVec.toNat_ofNat, BitVec.toNat_setWidth, hmask]
  rw [Nat.mod_eq_of_lt (a := v.toNat) (by omega), Nat.mod_eq_of_lt (by rw [Nat.shiftLeft_eq]; omega),
    shiftLeft_xor_eq_add _ hv]
  rfl

@[simp] theorem absorbAll_nil (chk : Residue) : absorbAll chk [] = chk := rfl

@[simp] theorem absorbAll_cons (chk : Residue) (v : Symbol) (vs : List Symbol) :
    absorbAll chk (v :: vs) = absorbAll (ckStep chk v) vs := rfl

theorem absorbAll_append (chk : Residue) (vs ws : List Symbol) :
    absorbAll chk (vs ++ ws) = absorbAll (absorbAll chk vs) ws := List.foldl_append

/-- Both arguments enter linearly over XOR (R49). -/
theorem ckStep_xor (a b : Residue) (v w : Symbol) : ckStep (a ^^^ b) (v ^^^ w) = ckStep a v ^^^ ckStep b w := by
  rw [ckStep_eq, ckStep_eq a, ckStep_eq b, ckStep_zero_xor, BitVec.setWidth_xor]; ac_rfl

theorem absorbAll_xor (vs ws : List Symbol) (a b : Residue) (h : vs.length = ws.length) :
    absorbAll (a ^^^ b) (List.zipWith (· ^^^ ·) vs ws) = absorbAll a vs ^^^ absorbAll b ws := by
  induction vs generalizing ws a b with
  | nil => cases ws <;> simp_all
  | cons v vs ih =>
    cases ws with
    | nil => simp at h
    | cons w ws =>
      simp only [List.zipWith_cons_cons, absorbAll_cons, ckStep_xor]
      exact ih _ _ _ (by simpa using h)

/-! ### The emission of groups -/

theorem toBits_pos (d : Direction) : 0 < toBits d := by cases d <;> decide

/-- R64: what the loop leaves is the remainder, given passes enough. -/
theorem emitGroups_snd (d : Direction) (a : BitVec 12) (passes b : Nat) (h : b ≤ passes) :
    (emitGroups d a passes b).2 = b % toBits d := by
  have hpos := toBits_pos d
  induction passes generalizing b with
  | zero =>
    obtain rfl : b = 0 := Nat.le_zero.mp h
    simp [emitGroups]
  | succ n ih =>
    unfold emitGroups
    split
    · rename_i hle
      rw [show b % toBits d = (b - toBits d) % toBits d by rw [Nat.mod_eq_sub_mod hle]]
      exact ih _ (by omega)
    · exact (Nat.mod_eq_of_lt (by omega)).symm

/-- R63, R64: the loop's groups in closed form, earliest first. -/
theorem emitGroups_fst (d : Direction) (a : BitVec 12) (passes b : Nat) (h : b ≤ passes) :
    (emitGroups d a passes b).1 = (List.range (b / toBits d)).map fun k => groupAt d a (b - (k + 1) * toBits d) := by
  have hpos := toBits_pos d
  induction passes generalizing b with
  | zero =>
    obtain rfl : b = 0 := Nat.le_zero.mp h
    simp [emitGroups]
  | succ n ih =>
    unfold emitGroups
    split
    · rename_i hle
      have hdiv : b / toBits d = (b - toBits d) / toBits d + 1 := by
        rw [Nat.div_eq_sub_div hpos hle]
      simp only [ih _ (show b - toBits d ≤ n by omega), hdiv, List.range_succ_eq_map, List.map_cons, List.map_map]
      congr 1
      · simp
      · apply List.map_congr_left
        intro k _
        simp only [Function.comp, Nat.succ_eq_add_one]
        congr 1
        rw [Nat.add_mul (k + 1)]
        omega
    · rw [Nat.div_eq_of_lt (by omega)]; rfl

@[simp] theorem State.append_bits (s : State) (v : Byte) :
    (s.append v).bits = BitVec.ofNat 4 (bitsHeld s % toBits s.mode) := by
  simp only [State.append, State.ok_bits, State.setLeftover_bits, emitGroups_snd _ _ _ _ le_rfl]

theorem State.append_bits_toNat (s : State) (v : Byte) : (s.append v).bits.toNat = bitsHeld s % toBits s.mode := by
  have h : bitsHeld s % toBits s.mode < toBits s.mode := Nat.mod_lt _ (toBits_pos _)
  have h8 : toBits s.mode ≤ 8 := by cases s.mode <;> decide
  rw [State.append_bits, BitVec.toNat_ofNat, Nat.mod_eq_of_lt (by omega)]

@[simp] theorem State.append_responses (s : State) (v : Byte) :
    (s.append v).responses = s.responses ++ [.ok (.groups ((List.range (bitsHeld s / toBits s.mode)).map fun k =>
      groupAt s.mode (pushBits s.acc s.mode v) (bitsHeld s - (k + 1) * toBits s.mode)))] := by
  simp only [State.append, State.ok_responses, State.setLeftover_responses, emitGroups_fst _ _ _ _ le_rfl]

/-- The accumulator after a push, as a number (R63). -/
theorem pushBits_toNat (acc : BitVec 12) (d : Direction) (v : Byte) (hv : v.toNat < 2 ^ fromBits d) :
    (pushBits acc d v).toNat = (acc.toNat * 2 ^ fromBits d + v.toNat) % 2 ^ 12 := by
  rw [pushBits, BitVec.toNat_ofNat, ← Nat.shiftLeft_add_eq_or_of_lt hv, Nat.shiftLeft_eq]

/-- An emitted group, as a number (R63). -/
theorem groupAt_toNat (d : Direction) (a : BitVec 12) (b : Nat) :
    (groupAt d a b).toNat = a.toNat / 2 ^ b % 2 ^ toBits d := by
  have h8 : 2 ^ toBits d ≤ 2 ^ 8 := by cases d <;> decide
  simp only [groupAt, groupMask, BitVec.toNat_ofNat, Nat.and_two_pow_sub_one_eq_mod, Nat.shiftRight_eq_div_pow]
  exact Nat.mod_eq_of_lt (lt_of_lt_of_le (Nat.mod_lt _ (by positivity)) h8)

/-- R67: every emitted group is below `2^toBits`. -/
theorem groupAt_lt (d : Direction) (a : BitVec 12) (b : Nat) : (groupAt d a b).toNat < 2 ^ toBits d := by
  rw [groupAt_toNat]; exact Nat.mod_lt _ (by positivity)

/-- The would-be final group as a number: the leftover bits, left-justified (R65). -/
theorem finalGroup_toNat (s : State) (h : s.bits.toNat < toBits s.mode) :
    (finalGroup s).toNat = s.acc.toNat % 2 ^ s.bits.toNat * 2 ^ (toBits s.mode - s.bits.toNat) := by
  have h8 : 2 ^ toBits s.mode ≤ 2 ^ 8 := by cases s.mode <;> decide
  have hsplit : 2 ^ toBits s.mode = 2 ^ s.bits.toNat * 2 ^ (toBits s.mode - s.bits.toNat) := by
    rw [← Nat.pow_add]; congr 1; omega
  simp only [finalGroup, groupMask, BitVec.toNat_ofNat, Nat.and_two_pow_sub_one_eq_mod, Nat.shiftLeft_eq]
  rw [Nat.mod_eq_of_lt (lt_of_lt_of_le (Nat.mod_lt _ (by positivity)) h8)]
  rw [hsplit, Nat.mul_mod_mul_right]

/-! ### The conditions -/

theorem exceedsSymbol_iff (v : Byte) : exceedsSymbol v = true ↔ 31 < v.toNat := by simp [exceedsSymbol]

/-- R63: "only possible when MODE=1". -/
theorem exceedsRange_iff (s : State) (v : Byte) :
    exceedsRange s v = true ↔ s.mode = .fiveToEight ∧ 31 < v.toNat := by
  have hv := v.isLt
  unfold exceedsRange
  rw [decide_eq_true_iff]
  cases s.mode
  · exact iff_of_false (Nat.not_le.mpr hv) (by simp)
  · exact ⟨fun h => ⟨rfl, Nat.lt_of_succ_le h⟩, fun h => h.2⟩

theorem tooManyLeftover_iff (s : State) : tooManyLeftover s = true ↔ fromBits s.mode ≤ s.bits.toNat := by
  simp [tooManyLeftover]

theorem nonzeroLeftover_iff (s : State) : nonzeroLeftover s = true ↔ finalGroup s ≠ 0#8 := by
  simp [nonzeroLeftover]

theorem setWidth_eq_ofNat {w : Nat} (v : BitVec w) : v.setWidth 16 = BitVec.ofNat 16 v.toNat := by
  apply BitVec.eq_of_toNat_eq; simp

theorem isValid_eq (s : State) : isValid s = decide (s.chk = 1#30) := rfl

end Sys2Proof.Machine
end

