-- ==== Sys2Proof/Laws/PerInstr.lean ====
section
/-! SUPPORT. Statements made per instruction: the family EncodeDecode, "the fields of a command's word are well-formed
and decode to the command" (R41), one lemma per constructor. -/

namespace Sys2Proof.Laws.EncodeDecode

/-- The word of a command passes the checks of R38 and R39 and decodes to that command (R41). -/
def Statement (i : Instr) : Prop := (fieldsOf (encode i)).wellFormed = true ∧ decode (encode i) = .command i

/-- A command whose word decodes to it has well-formed fields (Laws/Decode.lean). -/
theorem of_decode (i : Instr) (h : decode (encode i) = .command i) : Statement i :=
  ⟨by rw [← decode_isSome_iff_wellFormed, h]; rfl, h⟩

theorem ckInit : Statement .ckInit := ⟨by decide, by decide⟩

theorem ckSym (v : Byte) : Statement (.ckSym v) :=
  of_decode _ (by revert v; decide +kernel)

theorem ckHi (c : Byte) : Statement (.ckHi c) :=
  of_decode _ (by revert c; decide +kernel)

theorem ckLo (c : Byte) : Statement (.ckLo c) :=
  of_decode _ (by revert c; decide +kernel)

theorem ckVfy : Statement .ckVfy := ⟨by decide, by decide⟩

theorem ckFin : Statement .ckFin := ⟨by decide, by decide⟩

theorem ckRd : Statement .ckRd := ⟨by decide, by decide⟩

theorem rgInit (d : Direction) : Statement (.rgInit d) := by cases d <;> exact ⟨by decide, by decide⟩

theorem rgPush (v : Byte) : Statement (.rgPush v) :=
  of_decode _ (by revert v; decide +kernel)

theorem rgFlush (p : Padding) : Statement (.rgFlush p) := by cases p <;> exact ⟨by decide, by decide⟩

end Sys2Proof.Laws.EncodeDecode
end

