-- ==== Sys2Proof/Laws/Regrouper.lean ====
section
/-! SUPPORT. The regrouper's accumulator as a number, in the states of 10_state.md R14: what a push leaves in the bits
that count, and which bits an emitted group is (41_bit_regrouper.md R63). -/

namespace Sys2Proof.Machine

/-- Before the loop of R63 at most 12 bits are held (R68). -/
theorem bitsHeld_le {s : State} (hs : s.Inv) : bitsHeld s ≤ 12 := by
  unfold State.Inv at hs
  unfold bitsHeld
  cases hm : s.mode <;> rw [hm] at hs <;> simp [toBits, fromBits] at * <;> omega

/-- A push puts the value below the leftover bits; the stale bits above them do not count (R20, R63). -/
theorem pushBits_leftover {s : State} {v : Byte} (hs : s.Inv) (hv : v.toNat < 2 ^ fromBits s.mode) :
    (pushBits s.acc s.mode v).toNat % 2 ^ bitsHeld s = leftover s * 2 ^ fromBits s.mode + v.toNat := by
  rw [pushBits_toNat _ _ _ hv, Nat.mod_mod_of_dvd _ (pow_dvd_pow 2 (bitsHeld_le hs)), bitsHeld, Nat.pow_add, leftover]
  have hl : s.acc.toNat = 2 ^ s.bits.toNat * (s.acc.toNat / 2 ^ s.bits.toNat) + s.acc.toNat % 2 ^ s.bits.toNat :=
    (Nat.div_add_mod _ _).symm
  have hlt := Nat.mod_lt s.acc.toNat (show 0 < 2 ^ s.bits.toNat by positivity)
  conv_lhs => rw [hl]
  rw [Nat.add_mul, Nat.add_assoc, Nat.mul_right_comm, Nat.mul_add_mod, Nat.mod_eq_of_lt]
  have hle := Nat.mul_le_mul_right (2 ^ fromBits s.mode) (Nat.succ_le_of_lt hlt)
  rw [Nat.succ_mul] at hle
  omega

/-- A group at `b` is read from the low `n` bits, when it lies in them. -/
theorem groupAt_toNat_mod (d : Direction) (a : BitVec 12) {b n : Nat} (h : b + toBits d ≤ n) :
    (groupAt d a b).toNat = a.toNat % 2 ^ n / 2 ^ b % 2 ^ toBits d := by
  have hn : 2 ^ n = 2 ^ b * (2 ^ toBits d * 2 ^ (n - b - toBits d)) := by
    rw [← Nat.pow_add, ← Nat.pow_add]; congr 1; omega
  rw [groupAt_toNat, hn, Nat.mod_mul_right_div_self, Nat.mod_mul_right_mod]

end Sys2Proof.Machine
end

