-- ==== Sys2Proof/Laws/Step.lean ====
section
/-! SUPPORT. What a command, a step and a run do, said once. -/

namespace Sys2Proof.Machine

/-! ### A command -/

/-- Every command answers a next state with exactly one response more and the same inputs (R4, R18). -/
theorem exec_answers (i : Instr) (s : State) :
    ∃ t r, exec i s = .next t ∧ t.inputs = s.inputs ∧ t.responses = s.responses ++ [r] := by
  cases i with
  | ckInit => exact ⟨_, _, rfl, rfl, rfl⟩
  | ckSym v => simp only [exec, execCkSym]; split <;> exact ⟨_, _, rfl, rfl, rfl⟩
  | ckHi c => exact ⟨_, _, rfl, rfl, rfl⟩
  | ckLo c => exact ⟨_, _, rfl, rfl, rfl⟩
  | ckVfy => exact ⟨_, _, rfl, rfl, rfl⟩
  | ckFin => exact ⟨_, _, rfl, rfl, rfl⟩
  | ckRd => exact ⟨_, _, rfl, rfl, rfl⟩
  | rgInit d => exact ⟨_, _, rfl, rfl, rfl⟩
  | rgPush v => simp only [exec, execRgPush]; split <;> exact ⟨_, _, rfl, rfl, rfl⟩
  | rgFlush p =>
    cases p with
    | pad => exact ⟨_, _, rfl, rfl, rfl⟩
    | strict =>
      simp only [exec, execRgFlush, flushStrict]
      split
      · exact ⟨_, _, rfl, rfl, rfl⟩
      · split <;> exact ⟨_, _, rfl, rfl, rfl⟩

/-- A command reads nothing of what is presented (R17). -/
theorem exec_withInputs {i : Instr} {s t : State} (h : exec i s = .next t) (es : List Input) :
    exec i (s.withInputs es) = .next (t.withInputs es) := by
  cases i with
  | ckSym v =>
    simp only [exec, execCkSym] at h ⊢
    split at h <;> rename_i hc <;> cases h <;> simp only [hc] <;> rfl
  | rgPush v =>
    have hr : exceedsRange (s.withInputs es) v = exceedsRange s v := rfl
    simp only [exec, execRgPush, hr] at h ⊢
    split at h <;> rename_i hc <;> cases h <;> simp only [hc] <;> rfl
  | rgFlush p =>
    cases p with
    | pad => cases h; rfl
    | strict =>
      have h1 : tooManyLeftover (s.withInputs es) = tooManyLeftover s := rfl
      have h2 : nonzeroLeftover (s.withInputs es) = nonzeroLeftover s := rfl
      simp only [exec, execRgFlush, flushStrict, h1, h2] at h ⊢
      cases h
      by_cases hc : tooManyLeftover s <;> by_cases hd : nonzeroLeftover s <;> simp [hc, hd] <;> rfl
  | _ => cases h; rfl

theorem next_inj {s t : State} (h : (.next s : Host.Outcome State Fault Refusal) = .next t) : s = t := by
  cases h; rfl

theorem exec_inputs {i : Instr} {s t : State} (h : exec i s = .next t) : t.inputs = s.inputs := by
  obtain ⟨u, r, hu, hin, -⟩ := exec_answers i s
  rw [next_inj (h.symm.trans hu)]; exact hin

/-- R63 for a value in range. -/
theorem exec_rgPush_of_lt {s : State} {v : Byte} (h : v.toNat < 2 ^ fromBits s.mode) :
    exec (.rgPush v) s = .next (s.append v) := by
  have hr : exceedsRange s v = false := decide_eq_false (Nat.not_le.mpr h)
  simp only [exec, execRgPush, hr]; rfl

/-- R51 for a Symbol. -/
theorem exec_ckSym_setWidth (v : Symbol) (s : State) : exec (.ckSym (v.setWidth 8)) s = .next (s.absorb v) := by
  have hv : ∀ v : Symbol, exceedsSymbol (v.setWidth 8) = false ∧ symbolOf (v.setWidth 8) = v := by decide +kernel
  simp only [exec, execCkSym, (hv v).1, (hv v).2]; rfl

/-! ### A word -/

/-- Every word, a command's or an illegal one, is answered by a next state with one response more (R31, R39). -/
theorem takeCommand_answers (w : Word) (s : State) :
    ∃ t r, takeCommand w s = .next t ∧ t.inputs = s.inputs ∧ t.responses = s.responses ++ [r] := by
  unfold takeCommand
  split
  · exact exec_answers _ _
  · exact ⟨_, _, rfl, rfl, rfl⟩

theorem takeCommand_withInputs {w : Word} {s t : State} (h : takeCommand w s = .next t) (es : List Input) :
    takeCommand w (s.withInputs es) = .next (t.withInputs es) := by
  unfold takeCommand at *
  split at h
  · exact exec_withInputs h es
  · cases h; rfl

/-! ### A step -/

theorem step_idle {s : State} (h : s.inputs = []) : step s = .next s := by
  unfold step; rw [h]; rfl

theorem step_command {s : State} {w : Word} {rest : List Input} {i : Instr} (h : s.inputs = .command w :: rest)
    (hd : decode w = .command i) : step s = exec i (s.withInputs rest) := by
  unfold step; rw [h]; simp only [takeInput, takeCommand, hd]

theorem step_illegal {s : State} {w : Word} {rest : List Input} {why : Illegal} (h : s.inputs = .command w :: rest)
    (hd : decode w = .illegal why) : step s = .next ((s.withInputs rest).failIllegal w) := by
  unfold step; rw [h]; simp only [takeInput, takeCommand, hd]

theorem step_reset {s : State} {rest : List Input} (h : s.inputs = .reset :: rest) :
    step s = .next (s.withInputs rest).takeReset := by
  unfold step; rw [h]; rfl

/-- Everything a step can do: nothing (idle), a reset, the answer to an illegal word, or one command. -/
theorem step_cases {s t : State} (h : step s = .next t) :
    (s.inputs = [] ∧ t = s) ∨
    (∃ rest, s.inputs = .reset :: rest ∧ t = (s.withInputs rest).takeReset) ∨
    (∃ w rest why, s.inputs = .command w :: rest ∧ decode w = .illegal why ∧
      t = (s.withInputs rest).failIllegal w) ∨
    (∃ w rest i, s.inputs = .command w :: rest ∧ decode w = .command i ∧ exec i (s.withInputs rest) = .next t) := by
  rcases hin : s.inputs with _ | ⟨e, rest⟩
  · rw [step_idle hin] at h; cases h; exact .inl ⟨rfl, rfl⟩
  · right
    cases e with
    | reset => rw [step_reset hin] at h; cases h; exact .inl ⟨rest, rfl, rfl⟩
    | command w =>
      right
      cases hd : decode w with
      | illegal why => rw [step_illegal hin hd] at h; cases h; exact .inl ⟨w, rest, why, rfl, hd, rfl⟩
      | command i => rw [step_command hin hd] at h; exact .inr ⟨w, rest, i, rfl, hd, h⟩

/-! ### Runs -/

@[simp] theorem run_zero (s : State) : run 0 s = .next s := rfl

theorem run_succ {s t : State} (h : step s = .next t) (n : Nat) : run (n + 1) s = run n t := by
  simp only [run, h]

/-- Runs compose. -/
theorem run_add {s t : State} {m : Nat} (h : run m s = .next t) (n : Nat) : run (m + n) s = run n t := by
  induction m generalizing s with
  | zero => cases h; rw [Nat.zero_add]
  | succ m ih =>
    rw [show m + 1 + n = (m + n) + 1 by omega]
    simp only [run] at h ⊢
    cases hs : step s with
    | next u => rw [hs] at h; exact ih h
    | fault r => rw [hs] at h; cases h
    | refused r => rw [hs] at h; cases h

/-- The runs of this package are the host's. -/
theorem run_eq_host (n : Nat) (s : State) : Host.Core.run Sys2Proof.core n s = run n s := by
  induction n generalizing s with
  | zero => rfl
  | succ n ih =>
    simp only [run]
    cases hs : step s with
    | next t =>
      simp only [Host.Core.run]
      rw [show Sys2Proof.core.step s = .next t from hs]
      exact ih t
    | fault r => exact nomatch r
    | refused r =>
      simp only [Host.Core.run]
      rw [show Sys2Proof.core.step s = .refused r from hs]
      rfl

/-- The first presented word is answered, and the rest stays presented. -/
theorem run_presentWords {w : Word} {s t : State} (h : takeCommand w s = .next t) (ws : List Word) (n : Nat) :
    run (n + 1) (s.presentWords (w :: ws)) = run n (t.presentWords ws) := by
  obtain ⟨u, r, hu, hin, -⟩ := takeCommand_answers w s
  obtain rfl := next_inj (hu.symm.trans h)
  have hs : step (s.presentWords (w :: ws)) = takeCommand w (s.withInputs (ws.map Input.command ++ s.inputs)) := rfl
  apply run_succ
  rw [hs, takeCommand_withInputs hu, ← hin]; rfl

theorem encodeDecode_all (i : Instr) : Laws.EncodeDecode.Statement i := by
  cases i with
  | ckInit => exact Laws.EncodeDecode.ckInit
  | ckSym v => exact Laws.EncodeDecode.ckSym v
  | ckHi c => exact Laws.EncodeDecode.ckHi c
  | ckLo c => exact Laws.EncodeDecode.ckLo c
  | ckVfy => exact Laws.EncodeDecode.ckVfy
  | ckFin => exact Laws.EncodeDecode.ckFin
  | ckRd => exact Laws.EncodeDecode.ckRd
  | rgInit d => exact Laws.EncodeDecode.rgInit d
  | rgPush v => exact Laws.EncodeDecode.rgPush v
  | rgFlush p => exact Laws.EncodeDecode.rgFlush p

@[simp] theorem State.present_nil (s : State) : s.present [] = s := rfl

/-- The first presented command is executed, and the rest stays presented. -/
theorem run_present {i : Instr} {s t : State} (h : exec i s = .next t) (is : List Instr) (n : Nat) :
    run (n + 1) (s.present (i :: is)) = run n (t.present is) := by
  obtain ⟨u, r, hu, hin, -⟩ := exec_answers i s
  obtain rfl : u = t := by rw [hu] at h; cases h; rfl
  have hs : step (s.present (i :: is)) = exec i (s.withInputs ((is.map encode).map Input.command ++ s.inputs)) :=
    step_command (s := s.present (i :: is)) rfl (encodeDecode_all i).2
  apply run_succ
  rw [hs, exec_withInputs hu, ← hin]
  rfl

/-- A run of presented commands, one after the other. -/
theorem run_present_append {is js : List Instr} {s t : State} (h : run is.length (s.present is) = .next t)
    (hin : t.inputs = s.inputs) (n : Nat) :
    run (is.length + n) (s.present (is ++ js)) = run n (t.present js) := by
  induction is generalizing s with
  | nil => cases h; simp
  | cons i is ih =>
    obtain ⟨u, r, hu, hiu, -⟩ := exec_answers i s
    rw [List.length_cons, run_present hu] at h
    rw [List.length_cons, List.cons_append, show is.length + 1 + n = (is.length + n) + 1 by omega, run_present hu]
    exact ih h (by rw [hin, hiu])

/-- A run of absorbing commands: the residue is the fold over what they absorb, and each answers `ok()` (R72). -/
theorem run_absorbing {is : List Instr} {vs : List Symbol}
    (h : List.Forall₂ (fun i v => ∀ s : State, exec i s = .next (s.absorb v)) is vs) (s : State) :
    run is.length (s.present is) = .next { s with
      chk := absorbAll s.chk vs
      responses := s.responses ++ List.replicate is.length (.ok .nothing) } := by
  induction h generalizing s with
  | nil => simp
  | cons h1 _ ih =>
    rw [List.length_cons, run_present (h1 s), ih]
    simp [State.absorb, State.ok, State.deliver, State.setChk, List.replicate_succ]

end Sys2Proof.Machine
end

