-- ==== Sys2Proof/Tests/Slice0.lean ====
section
/-! SUPPORT. The model's own tests. Every expected value is copied from spec/95_test_vectors.md or from the table of
30_encoding.md R46 (the id stands beside the test), or worked out by hand from the rule named. Then, for every
statement of Certificates/Slice0/Obligations.lean that has hypotheses, states and operands that meet them all. -/

namespace Sys2Proof.Tests

open Sys2Proof.Machine

/-- A state with the given registers, nothing presented and nothing delivered. -/
def at_ (chk : Residue) (acc : BitVec 12) (bits : BitVec 4) (mode : Direction) : State :=
  { chk := chk, acc := acc, bits := bits, mode := mode, inputs := [], responses := [] }

/-- The checksum engine's register alone, the regrouper as after reset. -/
def ck (chk : Residue) : State := at_ chk 0#12 0#4 .eightToFive

/-- The regrouper's registers alone, `CHK` as after reset. -/
def rg (acc : BitVec 12) (bits : BitVec 4) (mode : Direction) : State := at_ 1#30 acc bits mode

/-- The next state of an outcome that has one. -/
def nextOf : Host.Outcome State Fault Refusal → Option State
  | .next s => some s
  | .fault _ => none
  | .refused _ => none

/-- One step that takes the word: the registers after it and the response words delivered. -/
def trial (s : State) (w : Word) : Option (State × List ResponseWord) :=
  (nextOf (step (s.withFetchWord 16 w.toNat))).map fun t =>
    ({ t with responses := [] }, t.responses.map Response.word)

/-! ### Ill-formed words: one for each check of WellFormed.lean (R38, R39) -/

theorem test_ill_unit : Fields.unitAssigned ⟨3#4, 0#4, 0#8⟩ = false := by decide
theorem test_ill_operation : Fields.operationAssigned ⟨1#4, 7#4, 0#8⟩ = false := by decide
theorem test_ill_operation_rg : Fields.operationAssigned ⟨2#4, 3#4, 0#8⟩ = false := by decide
theorem test_ill_must_be_zero : Fields.mustBeZeroHeld ⟨1#4, 4#4, 1#8⟩ = false := by decide
theorem test_ill_must_be_zero_bit : Fields.mustBeZeroHeld ⟨2#4, 0#4, 2#8⟩ = false := by decide
theorem test_ill_words :
    [Fields.wellFormed ⟨3#4, 0#4, 0#8⟩, Fields.wellFormed ⟨1#4, 7#4, 0#8⟩, Fields.wellFormed ⟨2#4, 3#4, 0#8⟩,
      Fields.wellFormed ⟨1#4, 4#4, 1#8⟩, Fields.wellFormed ⟨2#4, 0#4, 2#8⟩] =
      [false, false, false, false, false] := by decide

/-! ### Decoding: a word of every command written out bit by bit from R34 to R37 -/

theorem test_decode_ckInit : decode 0b0001_0000_00000000#16 = .command .ckInit := by decide
theorem test_decode_ckSym : decode 0b0001_0001_00011100#16 = .command (.ckSym 28#8) := by decide
theorem test_decode_ckHi : decode 0b0001_0010_01100001#16 = .command (.ckHi 97#8) := by decide
theorem test_decode_ckLo : decode 0b0001_0011_01100001#16 = .command (.ckLo 97#8) := by decide
theorem test_decode_ckVfy : decode 0b0001_0100_00000000#16 = .command .ckVfy := by decide
theorem test_decode_ckFin : decode 0b0001_0101_00000000#16 = .command .ckFin := by decide
theorem test_decode_ckRd : decode 0b0001_0110_00000000#16 = .command .ckRd := by decide
theorem test_decode_rgInit : decode 0b0010_0000_00000001#16 = .command (.rgInit .fiveToEight) := by decide
theorem test_decode_rgInit_0 : decode 0b0010_0000_00000000#16 = .command (.rgInit .eightToFive) := by decide
theorem test_decode_rgPush : decode 0b0010_0001_11111111#16 = .command (.rgPush 255#8) := by decide
theorem test_decode_rgFlush : decode 0b0010_0010_00000001#16 = .command (.rgFlush .pad) := by decide
theorem test_decode_rgFlush_0 : decode 0b0010_0010_00000000#16 = .command (.rgFlush .strict) := by decide

/-- V-EN-2, V-EN-4 to V-EN-7, V-EN-9 to V-EN-16. -/
theorem test_decode_illegal :
    [0x1001#16, 0x1401#16, 0x1580#16, 0x1700#16, 0x1F00#16, 0x2002#16, 0x2003#16, 0x2202#16, 0x2300#16, 0x0000#16,
      0xFFFF#16, 0x3000#16, 0x0100#16].map decode =
      [.illegal .mustBeZero, .illegal .mustBeZero, .illegal .mustBeZero, .illegal .unassignedOperation,
        .illegal .unassignedOperation, .illegal .mustBeZero, .illegal .mustBeZero, .illegal .mustBeZero,
        .illegal .unassignedOperation, .illegal .unassignedUnit, .illegal .unassignedUnit, .illegal .unassignedUnit,
        .illegal .unassignedUnit] := by decide

/-- The host's numbering: bit 0 is the least significant bit of the one word. -/
theorem test_decodeTableWord : decodeTableWord 16 0x2201 = some (.rgFlush .pad) := by decide

/-! ### Single steps: at most two per command -/

/-- V-CK-1, V-EN-1. -/
theorem test_ckInit : trial (ck 0x8c01#30) 0x1000#16 = some (ck 1#30, [0#40]) := by decide

/-- V-CK-13. -/
theorem test_ckSym : trial (ck 0x0230055c#30) 0x1119#16 = some (ck 0x3d6afc2b#30, [0#40]) := by decide

/-- V-CK-21. -/
theorem test_ckSym_error : trial (ck 0x8c01#30) 0x1120#16 = some (ck 0x8c01#30, [0x2000000020#40]) := by decide

/-- V-CK-14. -/
theorem test_ckHi : trial (ck 1#30) 0x1261#16 = some (ck 0x23#30, [0#40]) := by decide

/-- V-CK-17. -/
theorem test_ckHi_ff : trial (ck 1#30) 0x12FF#16 = some (ck 0x27#30, [0#40]) := by decide

/-- V-CK-18. -/
theorem test_ckLo : trial (ck 0x460#30) 0x1361#16 = some (ck 0x8c01#30, [0#40]) := by decide

/-- V-CK-20. -/
theorem test_ckLo_ff : trial (ck 1#30) 0x13FF#16 = some (ck 0x3f#30, [0#40]) := by decide

/-- V-CK-23. -/
theorem test_ckVfy : trial State.reset 0x1400#16 = some (State.reset, [0x0100000001#40]) := by decide

/-- V-CK-26. -/
theorem test_ckVfy_no : trial (ck 0x8c01#30) 0x1400#16 = some (ck 0x8c01#30, [0x0100000000#40]) := by decide

/-- V-CK-28. -/
theorem test_ckFin : trial (ck 0x8c01#30) 0x1500#16 = some (ck 0x8c01#30, [0x0615CCFE9F#40]) := by decide

/-- V-CK-25. -/
theorem test_ckFin_reset : trial State.reset 0x1500#16 = some (State.reset, [0x063B6A57B3#40]) := by decide

/-- V-CK-31. -/
theorem test_ckRd : trial (ck 0x3fffffff#30) 0x1600#16 = some (ck 0x3fffffff#30, [0x013FFFFFFF#40]) := by decide

/-- V-RG-40. -/
theorem test_rgInit : trial (rg 0xeef#12 2#4 .eightToFive) 0x2001#16 = some (rg 0#12 0#4 .fiveToEight, [0#40]) := by
  decide

/-- V-RG-41. -/
theorem test_rgPush :
    trial (rg 0x0de#12 3#4 .eightToFive) 0x21AD#16 = some (rg 0xead#12 1#4 .eightToFive, [0x020000161A#40]) := by decide

/-- V-RG-49. -/
theorem test_rgPush_error :
    trial (rg 0x01f#12 5#4 .fiveToEight) 0x2120#16 = some (rg 0x01f#12 5#4 .fiveToEight, [0x3000000020#40]) := by decide

/-- V-RG-47. -/
theorem test_rgFlush_pad :
    trial (rg 0x3ff#12 2#4 .fiveToEight) 0x2201#16 = some (rg 0#12 0#4 .fiveToEight, [0x01000000C0#40]) := by decide

/-- V-RG-46. -/
theorem test_rgFlush_strict :
    trial (rg 0x3ff#12 2#4 .fiveToEight) 0x2200#16 = some (rg 0x3ff#12 2#4 .fiveToEight, [0x50000000C0#40]) := by decide

/-! ### What is not one command's step -/

/-- V-RG-42: the stale high bits of `ACC` are dropped. -/
theorem test_push_stale :
    trial (rg 0xfff#12 4#4 .eightToFive) 0x2100#16 = some (rg 0xf00#12 2#4 .eightToFive, [0x020000001E#40]) := by decide

/-- V-ER-1: `E_PAD_ZERO` is tested before `E_PAD_NONZERO`. -/
theorem test_error_order :
    trial (rg 0x3ff#12 7#4 .fiveToEight) 0x2200#16 = some (rg 0x3ff#12 7#4 .fiveToEight, [0x4000000007#40]) := by decide

/-- V-EN-14. -/
theorem test_illegal_step :
    trial (rg 0x3ff#12 7#4 .fiveToEight) 0xFFFF#16 = some (rg 0x3ff#12 7#4 .fiveToEight, [0x100000FFFF#40]) := by decide

/-- R106: a reset between two commands delivers no response. -/
theorem test_reset_step :
    nextOf (step { at_ 5#30 0x3ff#12 2#4 .fiveToEight with inputs := [.reset, .command 0x1400#16] }) =
      some { State.reset with inputs := [.command 0x1400#16] } := by decide

/-- R103: with nothing presented nothing changes. -/
theorem test_idle_step : nextOf (step (rg 0x3ff#12 2#4 .fiveToEight)) = some (rg 0x3ff#12 2#4 .fiveToEight) := by decide

/-- V-RG-1: D0's golden test, through D0's own `convert`. -/
theorem test_reference_convert : Reference.convert [255] 8 5 true = .ok [31, 28] := by rfl

/-- V-RG-27: D0's `convert` fails on zero bits too. -/
theorem test_reference_convert_error : Reference.convert [0, 0, 0] 5 8 false = .error (.illegalZeroPadding 7) := by rfl

/-- A1: `create("a", [])`, and V-CK-32 for the case of the prefix. -/
theorem test_reference_create :
    Reference.create [0x61#8] [] = [10#5, 28#5, 25#5, 31#5, 20#5, 31#5] ∧
      Reference.create [0x41#8] [] = [8#5, 30#5, 16#5, 8#5, 13#5, 7#5] := by decide

/-- P2's first part: the checksum of A1 verifies. -/
theorem test_reference_verify :
    Reference.verify [0x61#8] [10#5, 28#5, 25#5, 31#5, 20#5, 31#5] = true ∧
      Reference.verify [0x61#8] [10#5, 28#5, 24#5, 31#5, 20#5, 31#5] = false := by decide

/-- R104: which host error an engine response stands for. -/
theorem test_host_errors :
    [Response.error .illegal 0#16, .error .symbol 32#16, .error .range 32#16, .error .padZero 5#16,
      .error .padNonzero 28#16, .ok (.valid false), .ok (.valid true), .ok .nothing].map Response.hostError =
      [none, some .invalidSymbol, some .range, some .illegalZeroPadding, some .nonZeroPadding, some .checksum, none,
        none] := by decide

/-- R44: a quoted character, a hexadecimal operand, a comment; R46 has the words. -/
theorem test_assembler :
    ["CK.HI 'a'".toList, "RG.PUSH 0xFF ; golden".toList, "RG.INIT 8TO5".toList].map Asm.line? =
      [some (.ckHi 0x61#8), some (.rgPush 0xFF#8), some (.rgInit .eightToFive)] := by decide

/-- R44: an operand above 255, a missing operand, an operand too many and a lower-case mnemonic are no lines. -/
theorem test_assembler_refuses :
    ["CK.SYM 256".toList, "CK.SYM".toList, "CK.RD 1".toList, "ck.rd".toList, "RG.FLUSH 2".toList].map Asm.line? =
      [none, none, none, none, none] := by decide

/-! ### Witnesses: the hypotheses of each statement can be met together -/

theorem test_witness_ResetEventSetsRegisters :
    ∃ (s : State) (rest : List Input), s.inputs = .reset :: rest ∧ s.chk ≠ 1#30 ∧ s.bits ≠ 0#4 :=
  ⟨{ at_ 5#30 0x3ff#12 2#4 .fiveToEight with inputs := [.reset] }, [], by decide⟩

theorem test_witness_DecoderFollowsOpcodeTable :
    ∃ (w : Word) (r q : OpcodeRow), r ∈ opcodeTable ∧ q ∈ opcodeTable ∧ w &&& r.mask = r.matchBits ∧
      w &&& q.mask = q.matchBits :=
  ⟨0x1261#16, ⟨0x1200#16, 0xFF00#16⟩, ⟨0x1200#16, 0xFF00#16⟩, by decide⟩

/-- R38, R39: a word of each way of being illegal. -/
theorem test_witness_IllegalWordsAreAnsweredAndChangeNothing :
    decode 0x0000#16 = .illegal .unassignedUnit ∧ decode 0x1700#16 = .illegal .unassignedOperation ∧
      decode 0x2300#16 = .illegal .unassignedOperation ∧ decode 0x1001#16 = .illegal .mustBeZero ∧
      decode 0x2002#16 = .illegal .mustBeZero := by decide

theorem test_witness_DecodeEncodeRoundTrip : ∃ (w : Word) (i : Instr), decode w = .command i :=
  ⟨0x11FF#16, .ckSym 255#8, by decide⟩

theorem test_witness_StepRunsDecodedCommand :
    ∃ (s : State) (w : Word) (i : Instr) (rest : List Input), decode w = .command i ∧ s.inputs = .command w :: rest :=
  ⟨{ ck 1#30 with inputs := [.command 0x1261#16] }, 0x1261#16, .ckHi 0x61#8, [], by decide⟩

theorem test_witness_OneResponsePerCommandInOrder : [0x1000#16, 0xFFFF#16][1]? = some 0xFFFF#16 := by decide

theorem test_witness_CkStepFollowsPseudocode : [4, 2, 0, 1, 3].Perm ([0, 1, 2, 3, 4] : List (Fin 5)) := by decide

/-- `top = 0` at both ends of its range; `c = 0`. -/
theorem test_witness_CkStepProperties :
    (0#30).toNat < 2 ^ 25 ∧ (0x1ffffff#30).toNat < 2 ^ 25 ∧ ¬ (0x2000000#30).toNat < 2 ^ 25 := by decide

theorem test_witness_CkInitStartsSession : ∃ t, exec .ckInit (ck 0x8c01#30) = .next t := ⟨_, rfl⟩

theorem test_witness_CkSymAbsorbsOrRefusesValue :
    ((0#8).toNat ≤ 31 ∧ (31#8).toNat ≤ 31) ∧ 31 < (32#8).toNat ∧ 31 < (255#8).toNat := by decide

theorem test_witness_CkHiAbsorbsHighBits :
    (33 ≤ (33#8).toNat ∧ (33#8).toNat ≤ 126) ∧ (33 ≤ (126#8).toNat ∧ (126#8).toNat ≤ 126) ∧ (31#8).toNat < 32 ∧
      128 ≤ (128#8).toNat := by decide

theorem test_witness_CkLoAbsorbsLowBits : (0x41#8).toNat % 32 = (0x61#8).toNat % 32 ∧ 0x41#8 ≠ 0x61#8 := by decide

theorem test_witness_CkVfyAnswersWhetherResidueIsOne :
    (∃ t, exec .ckInit (ck 0x8c01#30) = .next t) ∧
      ∃ t, exec .ckVfy (ck 0x8c01#30) = .next t ∧ t.responses = (ck 0x8c01#30).responses ++ [.ok (.valid false)] :=
  ⟨⟨_, rfl⟩, _, rfl, rfl⟩

theorem test_witness_CkFinAnswersChecksum :
    (∃ t, exec .ckInit (ck 0x8c01#30) = .next t) ∧ ∃ u, exec .ckFin (ck 0x8c01#30) = .next u := ⟨⟨_, rfl⟩, _, rfl⟩

theorem test_witness_CkRdAnswersResidue :
    ∃ t u, exec .ckVfy (ck 1#30) = .next t ∧ exec .ckRd (ck 1#30) = .next u ∧
      t.responses = (ck 1#30).responses ++ [.ok (.valid true)] := ⟨_, _, rfl, rfl, rfl⟩

theorem test_witness_RgInitStartsSession :
    (∃ t, exec (.rgInit .fiveToEight) (rg 0xeef#12 2#4 .eightToFive) = .next t ∧
      t.mode ≠ (rg 0xeef#12 2#4 .eightToFive).mode) ∧
      (0x2002#16).toNat / 256 = 0x20 ∧ (0x2002#16).toNat % 256 / 2 ≠ 0 ∧ (0x20ff#16).toNat / 256 = 0x20 :=
  ⟨⟨_, rfl, by decide⟩, by decide⟩

/-- The two sides of the range check: 31 and 32 in `MODE = 1`, 255 in `MODE = 0`. -/
theorem test_witness_RgPushAppendsAndEmits :
    (31#8).toNat < 2 ^ fromBits (rg 0x01f#12 5#4 .fiveToEight).mode ∧
      2 ^ fromBits (rg 0x01f#12 5#4 .fiveToEight).mode ≤ (32#8).toNat ∧
      (255#8).toNat < 2 ^ fromBits (rg 0x0de#12 3#4 .eightToFive).mode ∧ (rg 0x01f#12 5#4 .fiveToEight).Inv ∧
      (rg 0x0de#12 3#4 .eightToFive).Inv := by decide

theorem test_witness_GroupCountsOfPushAndSession :
    ((rg 0xfff#12 4#4 .eightToFive).Inv ∧ (255#8).toNat < 2 ^ fromBits (rg 0xfff#12 4#4 .eightToFive).mode) ∧
      ((rg 0xfff#12 7#4 .fiveToEight).Inv ∧ (31#8).toNat < 2 ^ fromBits (rg 0xfff#12 7#4 .fiveToEight).mode) ∧
      ∀ v ∈ [0#8, 31#8], v.toNat < 2 ^ fromBits .fiveToEight := by decide

/-- Each case of the strict flush, at the edges: `BITS` 5 and 7 (too many), 4 with a zero and a non-zero leftover,
and `MODE = 0` with the most bits it can hold. -/
theorem test_witness_RgFlushAppliesPolicy :
    (∀ s ∈ [rg 0x01f#12 5#4 .fiveToEight, rg 0#12 7#4 .fiveToEight], s.Inv ∧ fromBits s.mode ≤ s.bits.toNat) ∧
      (∀ s ∈ [rg 0x3ff#12 4#4 .fiveToEight, rg 0x0ff#12 4#4 .eightToFive],
        s.Inv ∧ s.bits.toNat < fromBits s.mode ∧ finalGroup s ≠ 0#8) ∧
      (∀ s ∈ [rg 0xff0#12 4#4 .fiveToEight, rg 0xabc#12 0#4 .eightToFive],
        s.Inv ∧ s.bits.toNat < fromBits s.mode ∧ finalGroup s = 0#8) ∧
      (0x2202#16).toNat / 256 = 0x22 ∧ (0x2202#16).toNat % 256 / 2 ≠ 0 := by decide

theorem test_witness_EmittedGroupsAreInRange :
    ∃ t, exec (.rgPush 0xAD#8) (rg 0x0de#12 3#4 .eightToFive) = .next t ∧
      t.responses = (rg 0x0de#12 3#4 .eightToFive).responses ++ [.ok (.groups [26#8, 22#8])] ∧
      (rg 0x0de#12 3#4 .eightToFive).mode = .eightToFive := ⟨_, rfl, by decide, rfl⟩

/-- V-RG-1 as a session with a final padded group. -/
theorem test_witness_SessionEmitsInputBitstream :
    (∀ v ∈ [255#8], v.toNat < 2 ^ fromBits .eightToFive) ∧
      ∃ t u, run 2 (State.reset.present [.rgInit .eightToFive, .rgPush 255#8]) = .next t ∧
        exec (.rgFlush .pad) t = .next u ∧ u.responses = t.responses ++ [.ok (.groups [28#8])] :=
  ⟨by decide, _, _, rfl, rfl, by decide⟩

theorem test_witness_EveryStepKeepsRegrouperInvariant :
    ∃ s t : State, s.Inv ∧ step s = .next t ∧ s.bits ≠ t.bits :=
  ⟨{ rg 0x0de#12 3#4 .eightToFive with inputs := [.command 0x21AD#16] }, _, by decide, rfl, by decide⟩

/-- Two states that differ above `BITS` only, and a push that reads `ACC`. -/
theorem test_witness_StaleBitsAreUnobservable :
    ∃ s s' : State, s.Inv ∧ s'.Inv ∧ SameVisible s s' ∧ s.inputs = s'.inputs ∧ s.acc ≠ s'.acc ∧ s.inputs ≠ [] :=
  ⟨{ rg 0xfff#12 4#4 .eightToFive with inputs := [.command 0x2100#16] },
    { rg 0x00f#12 4#4 .eightToFive with inputs := [.command 0x2100#16] }, by decide⟩

theorem test_witness_CommandsWriteOnlyTheirColumns :
    (∃ i : Instr, i.writesChk = false) ∧ (∃ i : Instr, i.writesLeftover = false) ∧ ∃ i : Instr, i.writesMode = false :=
  ⟨⟨.rgPush 0#8, rfl⟩, ⟨.ckFin, rfl⟩, ⟨.rgFlush .pad, rfl⟩⟩

theorem test_witness_UnitsShareNoState :
    (Instr.ckFin.side = .checksum ∧ (at_ 5#30 0x0de#12 3#4 .eightToFive).chk = (at_ 5#30 0#12 0#4 .fiveToEight).chk) ∧
      (Instr.rgPush 0xAD#8).side = .regrouper ∧
      (at_ 5#30 0x0de#12 3#4 .eightToFive).acc = (at_ 9#30 0x0de#12 3#4 .eightToFive).acc ∧
      (at_ 5#30 0x0de#12 3#4 .eightToFive).bits = (at_ 9#30 0x0de#12 3#4 .eightToFive).bits ∧
      (at_ 5#30 0x0de#12 3#4 .eightToFive).mode = (at_ 9#30 0x0de#12 3#4 .eightToFive).mode := by decide

theorem test_witness_CommandsOfTheTwoUnitsCommute :
    (Instr.ckSym 31#8).side = .checksum ∧ (Instr.rgFlush .strict).side = .regrouper := by decide

/-- A step that answers each of the five errors. -/
theorem test_witness_FailureChangesNothing :
    (nextOf (step { ck 5#30 with inputs := [.command 0x1700#16] })).map State.responses = some [.error .illegal 0x1700#16] ∧
      (nextOf (step { ck 5#30 with inputs := [.command 0x1120#16] })).map State.responses = some [.error .symbol 32#16] ∧
      (nextOf (step { rg 0x01f#12 5#4 .fiveToEight with inputs := [.command 0x2120#16] })).map State.responses =
        some [.error .range 32#16] ∧
      (nextOf (step { rg 0x01f#12 5#4 .fiveToEight with inputs := [.command 0x2200#16] })).map State.responses =
        some [.error .padZero 5#16] ∧
      (nextOf (step { rg 0x3ff#12 2#4 .fiveToEight with inputs := [.command 0x2200#16] })).map State.responses =
        some [.error .padNonzero 192#16] := by decide

/-- The edges of the error conditions: `IMM` 32, `BITS` 5 and 7 (no room for a second error), 4 with a leftover. -/
theorem test_witness_ErrorsArisePreciselyWhenStated :
    (∀ s ∈ [rg 0x01f#12 5#4 .fiveToEight, rg 0x3ff#12 7#4 .fiveToEight, rg 0x3ff#12 4#4 .fiveToEight,
        rg 0x0ff#12 3#4 .eightToFive], s.Inv) ∧
      (nextOf (takeCommand 0x2200#16 (rg 0x3ff#12 7#4 .fiveToEight))).map State.responses = some [.error .padZero 7#16] ∧
      (nextOf (takeCommand 0x2200#16 (rg 0x3ff#12 4#4 .fiveToEight))).map State.responses =
        some [.error .padNonzero 240#16] ∧
      (nextOf (takeCommand 0x21FF#16 (rg 0x3ff#12 4#4 .eightToFive))).map (·.responses.map Response.err) =
        some [0#4] := by decide

theorem test_witness_ModeChangesOnlyByInitOrReset :
    (∃ s t : State, step s = .next t ∧ t.mode ≠ s.mode ∧ s.inputs = [.reset]) ∧
      ∃ s t : State, step s = .next t ∧ t.mode ≠ s.mode ∧ s.inputs = [.command 0x2001#16] :=
  ⟨⟨{ rg 0x01f#12 5#4 .fiveToEight with inputs := [.reset] }, _, rfl, by decide, rfl⟩,
    ⟨{ rg 0x0ff#12 3#4 .eightToFive with inputs := [.command 0x2001#16] }, _, rfl, by decide, rfl⟩⟩

/-- `CHK` changed by a reset, by `CK.INIT` and by each absorbing command. -/
theorem test_witness_ChkChangesOnlyByInitOrAbsorbing :
    ∀ e ∈ [Input.reset, .command 0x1000#16, .command 0x1119#16, .command 0x1261#16, .command 0x1361#16],
      ∃ t : State, step { ck 0x8c01#30 with inputs := [e] } = .next t ∧ t.chk ≠ 0x8c01#30 := by
  intro e he
  simp only [List.mem_cons, List.not_mem_nil, or_false] at he
  rcases he with rfl | rfl | rfl | rfl | rfl <;> exact ⟨_, rfl, by decide⟩

theorem test_witness_ResponseWordFields :
    (Response.ok (.checksum 1#5 2#5 3#5 4#5 5#5 6#5)).count ≤ 6 ∧ [26#8, 22#8].length ≤ 2 := by decide

theorem test_witness_ResidueSequenceComputesResidue : 31 < (32#8).toNat := by decide

/-- P2: with the prefix absorbed and the third checksum Symbol 25, `CHK` ends at 1. -/
theorem test_witness_SingleSubstitutionIsDetected :
    (25#5 : Symbol) ≠ 24#5 ∧ ∃ t, run ([10#5, 28#5].length + [31#5, 20#5, 31#5].length + 2) ((ck 0x8c01#30).present
      (([10#5, 28#5] ++ 25#5 :: [31#5, 20#5, 31#5]).map (fun v : Symbol => Instr.ckSym (v.setWidth 8)) ++ [.ckVfy])) =
        .next t ∧ t.chk = 1#30 := ⟨by decide, _, rfl, by decide⟩

/-- Both policies and both directions have conversions that succeed (V-RG-1, V-RG-3). -/
theorem test_witness_ConvertSequenceComputesConvert :
    Reference.convert ([255#8].map BitVec.toNat) (fromBits .eightToFive) (toBits .eightToFive) Padding.pad.bit =
        .ok [31, 28] ∧
      Reference.convert ([31#8, 28#8].map BitVec.toNat) (fromBits .fiveToEight) (toBits .fiveToEight)
        Padding.strict.bit = .ok [255] := ⟨rfl, rfl⟩

end Sys2Proof.Tests
end

section
/-! PROOFS. A step runs the decoded command (00_scope.md R4, 20_memory.md R31). -/

namespace Sys2Proof.Machine

/-- A command word is 16 bits wide (R34), so the host's number for it loses nothing. -/
@[simp] theorem tableWord_toNat (w : Word) : tableWord 16 w.toNat = w := by
  rw [tableWord, Nat.mod_eq_of_lt w.isLt, BitVec.ofNat_toNat, BitVec.setWidth_eq]

/-- Presenting a command's word and taking it leaves `s` itself for the command to run on. -/
theorem step_withFetchWord {w : Word} {i : Instr} (hd : decode w = .command i) (s : State) :
    step (s.withFetchWord 16 w.toNat) = exec i s := by
  have hnext : (s.withFetchWord 16 w.toNat).inputs = .command w :: s.inputs := by
    simp [State.withFetchWord]
  exact step_command hnext hd

theorem decodeTableWord_toNat {w : Word} {i : Instr} (hd : decode w = .command i) :
    decodeTableWord 16 w.toNat = some i := by
  simp [decodeTableWord, hd, Decoded.instr?]

/-- Settles O11: each clause is the law of the step, of presenting a word, or of reading a word as a number. -/
theorem stepRunsDecodedCommand : Obligations.StepRunsDecodedCommand := by
  intro s w i hd
  exact ⟨fun _ hin => step_command hin hd, step_withFetchWord hd s, decodeTableWord_toNat hd⟩

end Sys2Proof.Machine
end

section
/-! PROOFS. The two units of 10_state.md R22: a command of one unit reads and writes that unit's registers only. The
outcomes of the commands that branch are said first, one equation per branch. -/

namespace Sys2Proof.Machine

/-! ### The branches of a command -/

theorem exec_ckSym_of_exceeds {v : Byte} (h : exceedsSymbol v = true) (s : State) :
    exec (.ckSym v) s = .next (s.fail .symbol (v.setWidth 16)) := by simp only [exec, execCkSym, h, if_true]

theorem exec_ckSym_of_le {v : Byte} (h : v.toNat ≤ 31) (s : State) :
    exec (.ckSym v) s = .next (s.absorb (symbolOf v)) := by
  have hv : exceedsSymbol v = false := decide_eq_false (Nat.not_lt.mpr h)
  simp only [exec, execCkSym, hv, Bool.false_eq_true, if_false]

theorem exec_rgPush_of_exceeds {s : State} {v : Byte} (h : 2 ^ fromBits s.mode ≤ v.toNat) :
    exec (.rgPush v) s = .next (s.fail .range (v.setWidth 16)) := by
  have hr : exceedsRange s v = true := decide_eq_true h
  simp only [exec, execRgPush, hr, if_true]

theorem exec_rgFlush_of_tooMany {s : State} (h : tooManyLeftover s = true) :
    exec (.rgFlush .strict) s = .next (s.fail .padZero (s.bits.setWidth 16)) := by
  simp only [exec, execRgFlush, flushStrict, h, if_true]

theorem exec_rgFlush_of_nonzero {s : State} (h : tooManyLeftover s = false) (hg : nonzeroLeftover s = true) :
    exec (.rgFlush .strict) s = .next (s.fail .padNonzero ((finalGroup s).setWidth 16)) := by
  simp only [exec, execRgFlush, flushStrict, h, hg, Bool.false_eq_true, if_true, if_false]

theorem exec_rgFlush_of_zero {s : State} (h : tooManyLeftover s = false) (hg : nonzeroLeftover s = false) :
    exec (.rgFlush .strict) s = .next (s.endSession []) := by
  simp only [exec, execRgFlush, flushStrict, h, hg, Bool.false_eq_true, if_false]

/-- `RG.FLUSH 0` either fails or ends the session with no group. -/
theorem exec_rgFlush_strict_cases (s : State) :
    (∃ code val, exec (.rgFlush .strict) s = .next (s.fail code val)) ∨
      exec (.rgFlush .strict) s = .next (s.endSession []) := by
  cases hz : tooManyLeftover s with
  | true => exact .inl ⟨_, _, exec_rgFlush_of_tooMany hz⟩
  | false =>
    cases hg : nonzeroLeftover s with
    | true => exact .inl ⟨_, _, exec_rgFlush_of_nonzero hz hg⟩
    | false => exact .inr (exec_rgFlush_of_zero hz hg)

/-! ### The commands of a unit -/

theorem regrouper_cases {i : Instr} (h : i.side = .regrouper) :
    (∃ d, i = .rgInit d) ∨ (∃ v, i = .rgPush v) ∨ i = .rgFlush .pad ∨ i = .rgFlush .strict := by
  cases i with
  | rgInit d => exact .inl ⟨d, rfl⟩
  | rgPush v => exact .inr (.inl ⟨v, rfl⟩)
  | rgFlush p => cases p <;> simp
  | _ => cases h

theorem writesLeftover_of_regrouper {i : Instr} (h : i.side = .regrouper) : i.writesLeftover = true := by
  rcases regrouper_cases h with ⟨d, rfl⟩ | ⟨v, rfl⟩ | rfl | rfl <;> rfl

/-- A `CK` command writes `CHK` and answers, both as `CHK` alone decides, and writes no other register. -/
theorem exec_checksum {i : Instr} (hi : i.side = .checksum) (s : State) :
    ∃ chk r, (i.writesChk = false → chk = s.chk) ∧
      ∀ u : State, u.chk = s.chk → exec i u = .next ((u.setChk chk).deliver r) := by
  cases i with
  | ckInit => exact ⟨1#30, .ok .nothing, nofun, fun _ _ => rfl⟩
  | ckSym v =>
    by_cases hv : v.toNat ≤ 31
    · exact ⟨ckStep s.chk (symbolOf v), .ok .nothing, nofun, fun u hu => by rw [exec_ckSym_of_le hv, ← hu]; rfl⟩
    · have hx : exceedsSymbol v = true := (exceedsSymbol_iff v).mpr (Nat.lt_of_not_le hv)
      exact ⟨s.chk, .error .symbol (v.setWidth 16), nofun,
        fun u hu => by rw [exec_ckSym_of_exceeds hx, ← hu]; rfl⟩
  | ckHi c => exact ⟨ckStep s.chk (highPart c), .ok .nothing, nofun, fun u hu => by rw [← hu]; rfl⟩
  | ckLo c => exact ⟨ckStep s.chk (lowPart c), .ok .nothing, nofun, fun u hu => by rw [← hu]; rfl⟩
  | ckVfy =>
    exact ⟨s.chk, .ok (.valid (s.chk == Config.chkOk)), fun _ => rfl, fun u hu => by rw [← hu]; rfl⟩
  | ckFin =>
    let m := checksumValue s.chk
    exact ⟨s.chk, .ok (.checksum (checksumGroup m 0) (checksumGroup m 1) (checksumGroup m 2) (checksumGroup m 3)
      (checksumGroup m 4) (checksumGroup m 5)), fun _ => rfl, fun u hu => by simp only [m, ← hu]; rfl⟩
  | ckRd => exact ⟨s.chk, .ok (.residue s.chk), fun _ => rfl, fun u hu => by rw [← hu]; rfl⟩
  | _ => cases hi

/-- An `RG` command writes `ACC`, `BITS` and `MODE` and answers, all as these three alone decide, and leaves `CHK`. -/
theorem exec_regrouper {i : Instr} (hi : i.side = .regrouper) (s : State) :
    ∃ acc bits mode r, (i.writesMode = false → mode = s.mode) ∧
      ∀ u : State, u.acc = s.acc → u.bits = s.bits → u.mode = s.mode →
        exec i u = .next (((u.setLeftover acc bits).setMode mode).deliver r) := by
  rcases regrouper_cases hi with ⟨d, rfl⟩ | ⟨v, rfl⟩ | rfl | rfl
  · exact ⟨0#12, 0#4, d, .ok .nothing, nofun, fun _ _ _ _ => rfl⟩
  · by_cases hv : v.toNat < 2 ^ fromBits s.mode
    · refine ⟨(s.append v).acc, (s.append v).bits, s.mode,
        .ok (.groups (emitGroups s.mode (s.append v).acc (bitsHeld s) (bitsHeld s)).1), fun _ => rfl, ?_⟩
      rintro ⟨_, _, _, _, _, _⟩ rfl rfl rfl
      exact exec_rgPush_of_lt hv
    · refine ⟨s.acc, s.bits, s.mode, .error .range (v.setWidth 16), fun _ => rfl, ?_⟩
      rintro ⟨_, _, _, _, _, _⟩ rfl rfl rfl
      exact exec_rgPush_of_exceeds (Nat.le_of_not_lt hv)
  · refine ⟨0#12, 0#4, s.mode, .ok (.groups (if 0 < s.bits.toNat then [finalGroup s] else [])), fun _ => rfl, ?_⟩
    rintro ⟨_, _, _, _, _, _⟩ rfl rfl rfl
    rfl
  · cases hz : tooManyLeftover s with
    | true =>
      refine ⟨s.acc, s.bits, s.mode, .error .padZero (s.bits.setWidth 16), fun _ => rfl, ?_⟩
      rintro ⟨_, _, _, _, _, _⟩ rfl rfl rfl
      exact exec_rgFlush_of_tooMany hz
    | false =>
      cases hg : nonzeroLeftover s with
      | true =>
        refine ⟨s.acc, s.bits, s.mode, .error .padNonzero ((finalGroup s).setWidth 16), fun _ => rfl, ?_⟩
        rintro ⟨_, _, _, _, _, _⟩ rfl rfl rfl
        exact exec_rgFlush_of_nonzero hz hg
      | false =>
        refine ⟨0#12, 0#4, s.mode, .ok (.groups []), fun _ => rfl, ?_⟩
        rintro ⟨_, _, _, _, _, _⟩ rfl rfl rfl
        exact exec_rgFlush_of_zero hz hg

/-! ### The statements about the units -/

/-- Settles O32: the frame of a `CK` command is in the shape of its next state, as that of an `RG` command is. -/
theorem commandsWriteOnlyTheirColumns : Obligations.CommandsWriteOnlyTheirColumns := by
  intro i s
  cases hi : i.side with
  | checksum =>
    obtain ⟨chk, r, hchk, hex⟩ := exec_checksum hi s
    exact ⟨_, r, hex s rfl, rfl, rfl, hchk, fun _ => ⟨rfl, rfl⟩, fun _ => rfl⟩
  | regrouper =>
    obtain ⟨acc, bits, mode, r, hmode, hex⟩ := exec_regrouper hi s
    have hw : i.writesLeftover = true := writesLeftover_of_regrouper hi
    exact ⟨_, r, hex s rfl rfl rfl, rfl, rfl, fun _ => rfl, by simp [hw], hmode⟩

/-- Settles O33: both states run into the same values, which the unit's own registers decide. -/
theorem unitsShareNoState : Obligations.UnitsShareNoState := by
  intro i s s'
  constructor
  · intro hi hc
    obtain ⟨chk, r, -, hex⟩ := exec_checksum hi s
    exact ⟨_, _, r, hex s rfl, hex s' hc.symm, rfl, rfl, rfl⟩
  · intro hi ha hb hm
    obtain ⟨acc, bits, mode, r, -, hex⟩ := exec_regrouper hi s
    exact ⟨_, _, r, hex s rfl rfl rfl, hex s' ha.symm hb.symm hm.symm, rfl, rfl, rfl, rfl, rfl⟩

/-- Settles O34: neither command touches what decides the other, so each acts after the other as it does on `s`. -/
theorem commandsOfTheTwoUnitsCommute : Obligations.CommandsOfTheTwoUnitsCommute := by
  intro i j s hi hj
  obtain ⟨chk, ri, -, hexi⟩ := exec_checksum hi s
  obtain ⟨acc, bits, mode, rj, -, hexj⟩ := exec_regrouper hj s
  refine ⟨_, _, _, _, ri, rj, hexi s rfl, hexj _ rfl rfl rfl, hexj s rfl rfl rfl, hexi _ rfl, ?_, ?_,
    rfl, rfl, rfl, rfl⟩
  · simp
  · simp

end Sys2Proof.Machine
end

section
/-! PROOFS. What every step keeps of the registers: the regrouper's invariant (10_state.md R14), and the ways in which
`CHK` is written (R10). -/

namespace Sys2Proof.Machine

/-! ### The regrouper's invariant -/

/-- `BITS = 0` meets R14 in both directions. -/
theorem inv_of_bits_zero {s : State} (h : s.bits = 0#4) : s.Inv := by
  unfold State.Inv
  rw [h]
  exact toBits_pos s.mode

theorem append_inv (s : State) (v : Byte) : (s.append v).Inv := by
  unfold State.Inv
  rw [State.append_bits_toNat, State.append_mode]
  exact Nat.mod_lt _ (toBits_pos s.mode)

/-- R14 speaks of `BITS` and `MODE` only. -/
theorem inv_of_eq {s t : State} (hs : s.Inv) (hb : t.bits = s.bits) (hm : t.mode = s.mode) : t.Inv := by
  unfold State.Inv
  rw [hb, hm]
  exact hs

theorem exec_keeps_inv {i : Instr} {s t : State} (hs : s.Inv) (h : exec i s = .next t) : t.Inv := by
  cases hi : i.side with
  | checksum =>
    obtain ⟨chk, r, -, hex⟩ := exec_checksum hi s
    rw [← next_inj ((hex s rfl).symm.trans h)]
    exact inv_of_eq hs rfl rfl
  | regrouper =>
    rcases regrouper_cases hi with ⟨d, rfl⟩ | ⟨v, rfl⟩ | rfl | rfl
    · cases h
      exact inv_of_bits_zero rfl
    · by_cases hv : v.toNat < 2 ^ fromBits s.mode
      · rw [exec_rgPush_of_lt hv] at h
        cases h
        exact append_inv s v
      · rw [exec_rgPush_of_exceeds (Nat.le_of_not_lt hv)] at h
        cases h
        exact inv_of_eq hs rfl rfl
    · cases h
      exact inv_of_bits_zero rfl
    · rcases exec_rgFlush_strict_cases s with ⟨code, val, hex⟩ | hex
      · rw [← next_inj (hex.symm.trans h)]
        exact inv_of_eq hs rfl rfl
      · rw [← next_inj (hex.symm.trans h)]
        exact inv_of_bits_zero rfl

/-- Settles O30: reset clears `BITS`, an illegal word and idleness leave it, and a command keeps R14. -/
theorem everyStepKeepsRegrouperInvariant : Obligations.EveryStepKeepsRegrouperInvariant := by
  intro s t hs h
  rcases step_cases h with ⟨-, rfl⟩ | ⟨rest, -, rfl⟩ | ⟨w, rest, why, -, -, rfl⟩ | ⟨w, rest, i, -, -, hex⟩
  · exact hs
  · exact inv_of_bits_zero rfl
  · exact inv_of_eq hs rfl rfl
  · exact exec_keeps_inv (s := s.withInputs rest) hs hex

/-- Settles O29: reset clears `BITS`. -/
theorem resetMeetsRegrouperInvariant : Obligations.ResetMeetsRegrouperInvariant :=
  inv_of_bits_zero State.reset_bits

/-! ### The writes of `CHK` -/

theorem symbolOf_eq (v : Byte) : symbolOf v = BitVec.ofNat 5 v.toNat := by
  apply BitVec.eq_of_toNat_eq
  simp [symbolOf]

theorem highPart_eq (c : Byte) : highPart c = BitVec.ofNat 5 (c.toNat / 32) := by
  apply BitVec.eq_of_toNat_eq
  simp [highPart, Nat.shiftRight_eq_div_pow]

theorem lowPart_eq (c : Byte) : lowPart c = BitVec.ofNat 5 (c.toNat % 32) := by
  apply BitVec.eq_of_toNat_eq
  simp [lowPart]

/-- A command leaves `CHK` unless it has a `w` in R22's column. -/
theorem exec_chk_of_not_writesChk {i : Instr} {s t : State} (h : exec i s = .next t) (hw : i.writesChk = false) :
    t.chk = s.chk := by
  obtain ⟨u, _, hu, -, -, hchk, -, -⟩ := commandsWriteOnlyTheirColumns i s
  rw [next_inj (h.symm.trans hu)]
  exact hchk hw

/-- The four commands that can change `CHK`, and what they put there (R50 to R53). -/
theorem exec_chk_of_ne {i : Instr} {s t : State} (h : exec i s = .next t) (hne : t.chk ≠ s.chk) :
    (i = .ckInit ∧ t.chk = 1#30) ∨
    ∃ c : Byte, (i = .ckSym c ∧ c.toNat ≤ 31 ∧ t.chk = ckStep s.chk (BitVec.ofNat 5 c.toNat)) ∨
      (i = .ckHi c ∧ t.chk = ckStep s.chk (BitVec.ofNat 5 (c.toNat / 32))) ∨
      (i = .ckLo c ∧ t.chk = ckStep s.chk (BitVec.ofNat 5 (c.toNat % 32))) := by
  cases i with
  | ckInit => cases h; exact .inl ⟨rfl, rfl⟩
  | ckSym v =>
    by_cases hv : v.toNat ≤ 31
    · rw [exec_ckSym_of_le hv] at h
      cases h
      exact .inr ⟨v, .inl ⟨rfl, hv, by rw [State.absorb_chk, symbolOf_eq]⟩⟩
    · rw [exec_ckSym_of_exceeds ((exceedsSymbol_iff v).mpr (Nat.lt_of_not_le hv))] at h
      cases h
      exact absurd rfl hne
  | ckHi c => cases h; exact .inr ⟨c, .inr (.inl ⟨rfl, by rw [State.absorb_chk, highPart_eq]⟩)⟩
  | ckLo c => cases h; exact .inr ⟨c, .inr (.inr ⟨rfl, by rw [State.absorb_chk, lowPart_eq]⟩)⟩
  | _ => exact absurd (exec_chk_of_not_writesChk h rfl) hne

/-- Settles O39: of all a step can do, only a reset and the four commands above change `CHK`. -/
theorem chkChangesOnlyByInitOrAbsorbing : Obligations.ChkChangesOnlyByInitOrAbsorbing := by
  intro s t h hne
  rcases step_cases h with ⟨-, rfl⟩ | ⟨rest, hin, rfl⟩ | ⟨w, rest, why, -, -, rfl⟩ | ⟨w, rest, i, hin, hd, hex⟩
  · exact absurd rfl hne
  · exact .inl ⟨rfl, .inl ⟨rest, hin⟩⟩
  · exact absurd rfl hne
  · rcases exec_chk_of_ne hex hne with
      ⟨rfl, hchk⟩ | ⟨c, ⟨rfl, hc, hchk⟩ | ⟨rfl, hchk⟩ | ⟨rfl, hchk⟩⟩
    · exact .inl ⟨hchk, .inr ⟨w, rest, hin, hd⟩⟩
    · exact .inr ⟨w, rest, c, hin, .inl ⟨hd, hc, hchk⟩⟩
    · exact .inr ⟨w, rest, c, hin, .inr (.inl ⟨hd, hchk⟩)⟩
    · exact .inr ⟨w, rest, c, hin, .inr (.inr ⟨hd, hchk⟩)⟩

end Sys2Proof.Machine
end

section
/-! PROOFS. The reset state and the constants (10_state.md R15, R21). -/

namespace Sys2Proof.Machine

/-- Settles O3: the two commands write the reset values whatever `s` holds. -/
theorem initCommandsReachResetState : Obligations.InitCommandsReachResetState :=
  ⟨⟨State.reset_chk, State.reset_acc, State.reset_bits, State.reset_mode⟩, ⟨rfl, rfl, rfl, rfl, rfl⟩,
    fun _ => ⟨_, _, rfl, rfl, rfl, rfl, rfl, rfl⟩⟩

/-- Settles O4: the three columns of R15, evaluated. -/
theorem generatorConstants : Obligations.GeneratorConstants :=
  ⟨by decide, by decide, by decide⟩

end Sys2Proof.Machine
end

section
/-! PROOFS. The stale bits of `ACC` cannot be observed (10_state.md R20). Two states that agree on what R20 calls
visible run in lockstep: the leftover bits decide the groups of a push, the bits it leaves and the final group of a flush. -/

namespace Sys2Proof.Machine

/-! ### A push by the leftover bits -/

/-- The bits left by a push are those of the old leftover with the value behind it (R63). -/
theorem leftover_append {s : State} {v : Byte} (hs : s.Inv) (hv : v.toNat < 2 ^ fromBits s.mode) :
    leftover (s.append v) =
      (leftover s * 2 ^ fromBits s.mode + v.toNat) % 2 ^ (bitsHeld s % toBits s.mode) := by
  have hdvd : 2 ^ (bitsHeld s % toBits s.mode) ∣ 2 ^ bitsHeld s := pow_dvd_pow 2 (Nat.mod_le _ _)
  rw [← pushBits_leftover hs hv, Nat.mod_mod_of_dvd _ hdvd, leftover, State.append_bits_toNat, State.append_acc]

/-- A group of a push is read from the old leftover with the value behind it (R63). -/
theorem groupAt_pushBits_toNat {s : State} {v : Byte} {b : Nat} (hs : s.Inv) (hv : v.toNat < 2 ^ fromBits s.mode)
    (hb : b + toBits s.mode ≤ bitsHeld s) :
    (groupAt s.mode (pushBits s.acc s.mode v) b).toNat =
      (leftover s * 2 ^ fromBits s.mode + v.toNat) / 2 ^ b % 2 ^ toBits s.mode := by
  rw [groupAt_toNat_mod _ _ hb, pushBits_leftover hs hv]

/-! ### What visibly equal states have in common -/

section Visible

variable {s s' : State} (hs : s.Inv) (hs' : s'.Inv) (hv : SameVisible s s')
include hv

theorem SameVisible.bitsHeld_eq : bitsHeld s = bitsHeld s' := by
  obtain ⟨-, hm, hb, -⟩ := hv
  rw [bitsHeld, bitsHeld, hm, hb]

theorem SameVisible.tooManyLeftover_eq : tooManyLeftover s = tooManyLeftover s' := by
  obtain ⟨-, hm, hb, -⟩ := hv
  rw [tooManyLeftover, tooManyLeftover, hm, hb]

include hs hs'

theorem SameVisible.finalGroup_eq : finalGroup s = finalGroup s' := by
  obtain ⟨-, hm, hb, hl⟩ := hv
  apply BitVec.eq_of_toNat_eq
  unfold leftover at hl
  rw [finalGroup_toNat s hs, finalGroup_toNat s' hs', hl, hm, hb]

theorem SameVisible.groupAt_eq {v : Byte} {b : Nat} (hr : v.toNat < 2 ^ fromBits s.mode)
    (hb : b + toBits s.mode ≤ bitsHeld s) :
    groupAt s.mode (pushBits s.acc s.mode v) b = groupAt s'.mode (pushBits s'.acc s'.mode v) b := by
  have hheld := hv.bitsHeld_eq
  obtain ⟨-, hm, -, hl⟩ := hv
  apply BitVec.eq_of_toNat_eq
  rw [groupAt_pushBits_toNat hs hr hb, groupAt_pushBits_toNat hs' (hm ▸ hr) (by rw [← hm, ← hheld]; exact hb), hm, hl]

theorem SameVisible.leftover_append_eq {v : Byte} (hr : v.toNat < 2 ^ fromBits s.mode) :
    leftover (s.append v) = leftover (s'.append v) := by
  have hheld := hv.bitsHeld_eq
  obtain ⟨-, hm, -, hl⟩ := hv
  rw [leftover_append hs hr, leftover_append hs' (hm ▸ hr), hm, hl, hheld]

end Visible

/-! ### Lockstep -/

/-- From `s` and `s'` the outcomes `o` and `o'` are next states with the same responses more, visibly equal again and
with the same presented. -/
def Lockstep (s s' : State) (o o' : Host.Outcome State Fault Refusal) : Prop :=
  ∃ t t' rs, o = .next t ∧ o' = .next t' ∧ t.responses = s.responses ++ rs ∧
    t'.responses = s'.responses ++ rs ∧ SameVisible t t' ∧ t.inputs = t'.inputs

section Step

variable {s s' : State} (hs : s.Inv) (hs' : s'.Inv) (hv : SameVisible s s') (hin : s.inputs = s'.inputs)
include hv hin

theorem lockstep_fail (code : ErrorCode) (val : BitVec 16) :
    Lockstep s s' (.next (s.fail code val)) (.next (s'.fail code val)) :=
  ⟨_, _, [.error code val], rfl, rfl, rfl, rfl, hv, hin⟩

theorem lockstep_endSession (gs : List Byte) :
    Lockstep s s' (.next (s.endSession gs)) (.next (s'.endSession gs)) := by
  obtain ⟨hc, hm, -, -⟩ := hv
  exact ⟨_, _, [.ok (.groups gs)], rfl, rfl, rfl, rfl, ⟨hc, hm, rfl, rfl⟩, hin⟩

include hs hs'

theorem lockstep_append {v : Byte} (hr : v.toNat < 2 ^ fromBits s.mode) :
    Lockstep s s' (.next (s.append v)) (.next (s'.append v)) := by
  have hheld := hv.bitsHeld_eq
  have hleft := hv.leftover_append_eq hs hs' hr
  have hgroup : ∀ k ∈ List.range (bitsHeld s / toBits s.mode),
      groupAt s.mode (pushBits s.acc s.mode v) (bitsHeld s - (k + 1) * toBits s.mode) =
        groupAt s'.mode (pushBits s'.acc s'.mode v) (bitsHeld s - (k + 1) * toBits s.mode) := by
    intro k hk
    have hfit : (k + 1) * toBits s.mode ≤ bitsHeld s :=
      (Nat.mul_le_mul_right _ (List.mem_range.mp hk)).trans (Nat.div_mul_le_self _ _)
    rw [Nat.succ_mul] at hfit
    exact hv.groupAt_eq hs hs' hr (by rw [Nat.succ_mul]; omega)
  obtain ⟨hc, hm, -, -⟩ := hv
  refine ⟨_, _, _, rfl, rfl, State.append_responses s v, ?_, ⟨hc, hm, ?_, hleft⟩, hin⟩
  · rw [State.append_responses, List.map_congr_left hgroup, hheld, hm]
  · rw [State.append_bits, State.append_bits, hheld, hm]

theorem lockstep_exec (i : Instr) : Lockstep s s' (exec i s) (exec i s') := by
  have ⟨hc, hm, hb, hl⟩ := hv
  cases hi : i.side with
  | checksum =>
    obtain ⟨chk, r, -, hex⟩ := exec_checksum hi s
    exact ⟨_, _, [r], hex s rfl, hex s' hc.symm, rfl, rfl, ⟨rfl, hm, hb, hl⟩, hin⟩
  | regrouper =>
    rcases regrouper_cases hi with ⟨d, rfl⟩ | ⟨v, rfl⟩ | rfl | rfl
    · exact ⟨_, _, [.ok .nothing], rfl, rfl, rfl, rfl, ⟨hc, rfl, rfl, rfl⟩, hin⟩
    · by_cases hr : v.toNat < 2 ^ fromBits s.mode
      · rw [exec_rgPush_of_lt hr, exec_rgPush_of_lt (hm ▸ hr)]
        exact lockstep_append hs hs' hv hin hr
      · have hx : 2 ^ fromBits s.mode ≤ v.toNat := Nat.le_of_not_lt hr
        rw [exec_rgPush_of_exceeds hx, exec_rgPush_of_exceeds (hm ▸ hx)]
        exact lockstep_fail hv hin _ _
    · have hflush : flushPad s' = s'.endSession (if 0 < s.bits.toNat then [finalGroup s] else []) := by
        rw [flushPad, hb, hv.finalGroup_eq hs hs']
      change Lockstep s s' (.next (flushPad s)) (.next (flushPad s'))
      rw [hflush]
      exact lockstep_endSession hv hin _
    · have hz' := hv.tooManyLeftover_eq
      have hg' : nonzeroLeftover s = nonzeroLeftover s' := by
        rw [nonzeroLeftover, nonzeroLeftover, hv.finalGroup_eq hs hs']
      cases hz : tooManyLeftover s with
      | true =>
        rw [exec_rgFlush_of_tooMany hz, exec_rgFlush_of_tooMany (hz' ▸ hz), hb]
        exact lockstep_fail hv hin _ _
      | false =>
        cases hg : nonzeroLeftover s with
        | true =>
          rw [exec_rgFlush_of_nonzero hz hg, exec_rgFlush_of_nonzero (hz' ▸ hz) (hg' ▸ hg), hv.finalGroup_eq hs hs']
          exact lockstep_fail hv hin _ _
        | false =>
          rw [exec_rgFlush_of_zero hz hg, exec_rgFlush_of_zero (hz' ▸ hz) (hg' ▸ hg)]
          exact lockstep_endSession hv hin _

theorem lockstep_step : Lockstep s s' (step s) (step s') := by
  rcases he : s.inputs with _ | ⟨e, rest⟩
  · rw [step_idle he, step_idle (hin ▸ he)]
    exact ⟨s, s', [], rfl, rfl, by simp, by simp, hv, hin⟩
  · have he' : s'.inputs = e :: rest := hin ▸ he
    cases e with
    | reset =>
      rw [step_reset he, step_reset he']
      exact ⟨_, _, [], rfl, rfl, by simp, by simp, ⟨rfl, rfl, rfl, rfl⟩, rfl⟩
    | command w =>
      cases hd : decode w with
      | illegal why =>
        rw [step_illegal he hd, step_illegal he' hd]
        exact lockstep_fail (s := s.withInputs rest) (s' := s'.withInputs rest) hv rfl _ _
      | command i =>
        rw [step_command he hd, step_command he' hd]
        exact lockstep_exec (s := s.withInputs rest) (s' := s'.withInputs rest) hs hs' hv rfl i

end Step

/-- Settles O31: visible equality is a simulation that every step keeps, and R14 with it, so it holds along a run. -/
theorem staleBitsAreUnobservable : Obligations.StaleBitsAreUnobservable := by
  intro n
  induction n with
  | zero => exact fun s s' _ _ hv hin => ⟨s, s', [], rfl, rfl, by simp, by simp, hv, hin⟩
  | succ n ih =>
    intro s s' hs hs' hv hin
    obtain ⟨u, u', qs, hu, hu', hq, hq', hvu, hinu⟩ := lockstep_step hs hs' hv hin
    have hsu := everyStepKeepsRegrouperInvariant s u hs hu
    have hsu' := everyStepKeepsRegrouperInvariant s' u' hs' hu'
    obtain ⟨t, t', rs, ht, ht', hr, hr', hvt, hint⟩ := ih u u' hsu hsu' hvu hinu
    refine ⟨t, t', qs ++ rs, ?_, ?_, ?_, ?_, hvt, hint⟩
    · rw [run_succ hu, ht]
    · rw [run_succ hu', ht']
    · rw [hr, hq, List.append_assoc]
    · rw [hr', hq', List.append_assoc]

end Sys2Proof.Machine
end

section
/-! PROOFS. A run over presented words (20_memory.md R31): one response for each, in the order of the words. -/

namespace Sys2Proof.Machine

@[simp] theorem State.presentWords_nil (s : State) : s.presentWords [] = s := rfl

/-- Settles O13, by induction on the words: the first is answered by `s` itself, the later ones by the state it
leaves, and the rest of the run is the run over the later ones. -/
theorem oneResponsePerCommandInOrder : Obligations.OneResponsePerCommandInOrder := by
  intro ws
  induction ws with
  | nil => exact fun s => ⟨s, [], rfl, by simp, rfl, rfl, by simp⟩
  | cons w ws ih =>
    intro s
    obtain ⟨s₁, r, hw, hin, hr⟩ := takeCommand_answers w s
    obtain ⟨t, rs, hrun, hrs, hlen, htin, hkth⟩ := ih s₁
    refine ⟨t, r :: rs, ?_, ?_, ?_, htin.trans hin, ?_⟩
    · rw [List.length_cons, run_presentWords hw, hrun]
    · rw [hrs, hr, List.append_assoc, List.singleton_append]
    · rw [List.length_cons, List.length_cons, hlen]
    · intro k w' hk
      cases k with
      | zero =>
        obtain rfl : w = w' := by simpa using hk
        exact ⟨s, s₁, r, rfl, rfl, by simp, hw, rfl, hr⟩
      | succ k =>
        obtain ⟨u, v, r', hu, huin, hur, hv, hr', hvr⟩ := hkth k w' (by simpa using hk)
        refine ⟨u, v, r', ?_, huin.trans hin, ?_, hv, by simpa using hr', hvr⟩
        · rw [List.take_succ_cons, run_presentWords hw, hu]
        · rw [hur, hr, List.take_succ_cons, List.append_assoc, List.singleton_append]

end Sys2Proof.Machine
end

section
/-! PROOFS. The bitstream of a regrouping session (20_memory.md R26). A push puts its value behind the leftover bits
and the loop of R63 cuts groups off the front, so leftover bits and input together are the bitstream of the groups and
the new leftover bits; a session is one such exchange after the other. -/

namespace Sys2Proof.Machine

/-! ### Bits, most significant first -/

@[simp] theorem bitsMsbFirst_zero (x : Nat) : bitsMsbFirst 0 x = [] := rfl

@[simp] theorem streamBits_nil (n : Nat) : streamBits n [] = [] := rfl

@[simp] theorem streamBits_cons (n v : Nat) (vs : List Nat) :
    streamBits n (v :: vs) = bitsMsbFirst n v ++ streamBits n vs := List.flatMap_cons

theorem streamBits_append (n : Nat) (vs ws : List Nat) :
    streamBits n (vs ++ ws) = streamBits n vs ++ streamBits n ws := List.flatMap_append

/-- The high bits of a number, then its low bits. -/
theorem bitsMsbFirst_add (m n x : Nat) : bitsMsbFirst (m + n) x = bitsMsbFirst m (x / 2 ^ n) ++ bitsMsbFirst n x := by
  induction m with
  | zero => simp
  | succ m ih => rw [Nat.succ_add, bitsMsbFirst, bitsMsbFirst, ih, Nat.testBit_div_two_pow, List.cons_append]

theorem bitsMsbFirst_mod {m n : Nat} (h : m ≤ n) (x : Nat) : bitsMsbFirst m (x % 2 ^ n) = bitsMsbFirst m x := by
  induction m with
  | zero => rfl
  | succ m ih =>
    rw [bitsMsbFirst, bitsMsbFirst, ih (by omega), Nat.testBit_mod_two_pow, decide_eq_true (by omega), Bool.true_and]

/-- A number put below another one stands behind it in the bitstream. -/
theorem bitsMsbFirst_mul_add (m x : Nat) {n v : Nat} (h : v < 2 ^ n) :
    bitsMsbFirst (m + n) (x * 2 ^ n + v) = bitsMsbFirst m x ++ bitsMsbFirst n v := by
  have hhigh : (x * 2 ^ n + v) / 2 ^ n = x := by
    rw [Nat.mul_comm, Nat.mul_add_div (by positivity), Nat.div_eq_of_lt h, Nat.add_zero]
  have hlow : (x * 2 ^ n + v) % 2 ^ n = v := by rw [Nat.mul_comm, Nat.mul_add_mod, Nat.mod_eq_of_lt h]
  rw [bitsMsbFirst_add, hhigh, ← bitsMsbFirst_mod le_rfl (x * 2 ^ n + v), hlow]

theorem bitsMsbFirst_of_zero (n : Nat) : bitsMsbFirst n 0 = List.replicate n false := by
  induction n with
  | zero => rfl
  | succ n ih => rw [bitsMsbFirst, ih, Nat.zero_testBit, List.replicate_succ]

/-! ### One push -/

/-- The loop of R63 cuts the bits held into its groups and what it leaves. -/
theorem emitGroups_bitstream (d : Direction) (a : BitVec 12) (passes b : Nat) :
    streamBits (toBits d) ((emitGroups d a passes b).1.map BitVec.toNat) ++
      bitsMsbFirst (emitGroups d a passes b).2 a.toNat = bitsMsbFirst b a.toNat := by
  induction passes generalizing b with
  | zero => rfl
  | succ n ih =>
    unfold emitGroups
    split
    · rename_i hle
      rw [List.map_cons, streamBits_cons, List.append_assoc, ih, groupAt_toNat, bitsMsbFirst_mod le_rfl,
        ← bitsMsbFirst_add, Nat.add_sub_cancel' hle]
    · rfl

/-- The response to a push of a value in range (R63). -/
def pushResponse (s : State) (v : Byte) : Response :=
  .ok (.groups (emitGroups s.mode (pushBits s.acc s.mode v) (bitsHeld s) (bitsHeld s)).1)

theorem append_responses_eq (s : State) (v : Byte) : (s.append v).responses = s.responses ++ [pushResponse s v] := rfl

theorem bitsMsbFirst_leftover (s : State) :
    bitsMsbFirst s.bits.toNat (leftover s) = bitsMsbFirst s.bits.toNat s.acc.toNat := bitsMsbFirst_mod le_rfl _

/-- R26 for one push: leftover bits and value are the groups answered and the new leftover bits. -/
theorem append_bitstream {s : State} {v : Byte} (hs : s.Inv) (hv : v.toNat < 2 ^ fromBits s.mode) :
    bitsMsbFirst s.bits.toNat (leftover s) ++ bitsMsbFirst (fromBits s.mode) v.toNat =
      streamBits (toBits s.mode) (pushResponse s v).outs ++
        bitsMsbFirst (s.append v).bits.toNat (leftover (s.append v)) := by
  have hbits : (s.append v).bits.toNat = (emitGroups s.mode (pushBits s.acc s.mode v) (bitsHeld s) (bitsHeld s)).2 := by
    rw [State.append_bits_toNat, emitGroups_snd _ _ _ _ le_rfl]
  calc bitsMsbFirst s.bits.toNat (leftover s) ++ bitsMsbFirst (fromBits s.mode) v.toNat
      = bitsMsbFirst (bitsHeld s) (leftover s * 2 ^ fromBits s.mode + v.toNat) := (bitsMsbFirst_mul_add _ _ hv).symm
    _ = bitsMsbFirst (bitsHeld s) (pushBits s.acc s.mode v).toNat := by
        rw [← pushBits_leftover hs hv, bitsMsbFirst_mod le_rfl]
    _ = _ := by
        rw [bitsMsbFirst_leftover, hbits, State.append_acc]
        exact (emitGroups_bitstream _ _ _ _).symm

/-! ### A list of pushes -/

/-- The state after pushes of values in range. -/
def State.appendAll (s : State) (vs : List Byte) : State := vs.foldl State.append s

/-- The responses to pushes of values in range. -/
def pushResponses : State → List Byte → List Response
  | _, [] => []
  | s, v :: vs => pushResponse s v :: pushResponses (s.append v) vs

@[simp] theorem State.appendAll_nil (s : State) : s.appendAll [] = s := rfl

@[simp] theorem State.appendAll_cons (s : State) (v : Byte) (vs : List Byte) :
    s.appendAll (v :: vs) = (s.append v).appendAll vs := rfl

@[simp] theorem State.appendAll_chk (s : State) (vs : List Byte) : (s.appendAll vs).chk = s.chk := by
  induction vs generalizing s with
  | nil => rfl
  | cons v vs ih => rw [State.appendAll_cons, ih, State.append_chk]

@[simp] theorem State.appendAll_mode (s : State) (vs : List Byte) : (s.appendAll vs).mode = s.mode := by
  induction vs generalizing s with
  | nil => rfl
  | cons v vs ih => rw [State.appendAll_cons, ih, State.append_mode]

@[simp] theorem State.appendAll_inputs (s : State) (vs : List Byte) : (s.appendAll vs).inputs = s.inputs := by
  induction vs generalizing s with
  | nil => rfl
  | cons v vs ih => rw [State.appendAll_cons, ih, State.append_inputs]

theorem State.appendAll_responses (s : State) (vs : List Byte) :
    (s.appendAll vs).responses = s.responses ++ pushResponses s vs := by
  induction vs generalizing s with
  | nil => exact (List.append_nil _).symm
  | cons v vs ih => rw [State.appendAll_cons, ih, append_responses_eq, List.append_assoc]; rfl

theorem appendAll_inv {s : State} (hs : s.Inv) (vs : List Byte) : (s.appendAll vs).Inv := by
  induction vs generalizing s with
  | nil => exact hs
  | cons v vs ih => exact ih (append_inv s v)

/-- A run of presented pushes appends their values one after the other. -/
theorem run_rgPushes {s : State} {vs : List Byte} (hvs : ∀ v ∈ vs, v.toNat < 2 ^ fromBits s.mode) :
    run vs.length (s.present (vs.map .rgPush)) = .next (s.appendAll vs) := by
  induction vs generalizing s with
  | nil => rfl
  | cons v vs ih =>
    obtain ⟨hv, hvs⟩ := List.forall_mem_cons.mp hvs
    rw [List.length_cons, List.map_cons, run_present (exec_rgPush_of_lt hv)]
    exact ih hvs

/-- R26 for a list of pushes. -/
theorem appendAll_bitstream {s : State} {vs : List Byte} (hs : s.Inv)
    (hvs : ∀ v ∈ vs, v.toNat < 2 ^ fromBits s.mode) :
    bitsMsbFirst s.bits.toNat (leftover s) ++ streamBits (fromBits s.mode) (vs.map BitVec.toNat) =
      streamBits (toBits s.mode) ((pushResponses s vs).flatMap Response.outs) ++
        bitsMsbFirst (s.appendAll vs).bits.toNat (leftover (s.appendAll vs)) := by
  induction vs generalizing s with
  | nil => exact List.append_nil _
  | cons v vs ih =>
    obtain ⟨hv, hvs⟩ := List.forall_mem_cons.mp hvs
    have hrest := ih (append_inv s v) hvs
    rw [State.append_mode] at hrest
    rw [List.map_cons, streamBits_cons, ← List.append_assoc, append_bitstream hs hv, List.append_assoc, hrest,
      pushResponses, List.flatMap_cons, streamBits_append, List.append_assoc, State.appendAll_cons]

/-! ### A session -/

/-- The state after `RG.INIT d` (R62). -/
def State.startSession (s : State) (d : Direction) : State := ((s.setLeftover 0#12 0#4).setMode d).ok .nothing

theorem exec_rgInit (d : Direction) (s : State) : exec (.rgInit d) s = .next (s.startSession d) := rfl

/-- A run of `RG.INIT d` and pushes of values in range. -/
theorem run_session {d : Direction} {vs : List Byte} (hvs : ∀ v ∈ vs, v.toNat < 2 ^ fromBits d) (s : State) :
    run (vs.length + 1) (s.present (.rgInit d :: vs.map .rgPush)) = .next ((s.startSession d).appendAll vs) := by
  rw [run_present (exec_rgInit d s)]
  exact run_rgPushes hvs

/-- The would-be final group is the leftover bits with zeros below (R26, R65). -/
theorem finalGroup_bits {s : State} (hs : s.Inv) :
    bitsMsbFirst (toBits s.mode) (finalGroup s).toNat =
      bitsMsbFirst s.bits.toNat (leftover s) ++ List.replicate (toBits s.mode - s.bits.toNat) false := by
  have hpad := bitsMsbFirst_mul_add s.bits.toNat (leftover s) (Nat.two_pow_pos (toBits s.mode - s.bits.toNat))
  rwa [Nat.add_zero, Nat.add_sub_cancel' (Nat.le_of_lt hs), bitsMsbFirst_of_zero, leftover,
    ← finalGroup_toNat s hs] at hpad

/-- A group that `RG.FLUSH 1` answers is the would-be final group (R65). -/
theorem eq_finalGroup_of_rgFlush_pad {t u : State} {g : Byte} (h : exec (.rgFlush .pad) t = .next u)
    (hu : u.responses = t.responses ++ [.ok (.groups [g])]) : g = finalGroup t := by
  obtain rfl : flushPad t = u := next_inj h
  rw [flushPad, State.endSession_responses] at hu
  split at hu
  · simpa using hu.symm
  · simp at hu

/-- Settles O28: a session starts with no leftover bits, so its input alone is the bitstream of R26. -/
theorem sessionEmitsInputBitstream : Obligations.SessionEmitsInputBitstream := by
  intro d vs s hvs
  have hinv : (s.startSession d).Inv := inv_of_bits_zero rfl
  refine ⟨(s.startSession d).appendAll vs, .ok .nothing :: pushResponses (s.startSession d) vs, run_session hvs s,
    ?_, State.appendAll_mode _ _, State.appendAll_chk _ _, State.appendAll_inputs _ _,
    appendAll_bitstream hinv hvs, ?_⟩
  · rw [State.appendAll_responses, State.startSession, State.ok_responses, List.append_assoc]; rfl
  · intro u g hex hu
    have hfinal := finalGroup_bits (appendAll_inv hinv vs)
    rw [State.appendAll_mode] at hfinal
    rw [eq_finalGroup_of_rgFlush_pad hex hu]
    exact hfinal

end Sys2Proof.Machine
end

section
/-! PROOFS. The decoder and the encoder (30_encoding.md R36, R38, R39, R41). The words that decode to a command are the
encodings of the commands; the table's rows and the list of illegal words follow from that. -/

namespace Sys2Proof

/-! ### Decoding and encoding -/

theorem decode_encode (i : Instr) : decode (encode i) = .command i := (Machine.encodeDecode_all i).2

/-- The word of a decoded command has the fields of that command's encoding, and a word is its fields. -/
theorem encode_of_decode {w : Word} {i : Instr} (h : decode w = .command i) : encode i = w :=
  fieldsOf_injective ((fieldsOf_encode i).trans (decodeFields_eq h).symm)

theorem decode_eq_command_iff {w : Word} {i : Instr} : decode w = .command i ↔ encode i = w :=
  ⟨encode_of_decode, fun h => h ▸ decode_encode i⟩

theorem encode_injective : Function.Injective encode := fun i _ h =>
  Decoded.command.inj ((decode_encode i).symm.trans (decode_eq_command_iff.mpr h.symm))

/-- Settles O6: both directions say that the words of a command are its one encoding. -/
theorem decodeEncodeRoundTrip : Obligations.DecodeEncodeRoundTrip :=
  ⟨decode_encode, fun _ _ => encode_of_decode⟩

/-! ### The rows of the table -/

theorem Instr.row_mem_opcodeTable (i : Instr) : i.row ∈ opcodeTable := by
  cases i <;> simp [opcodeTable, Instr.row]

/-- Every row's mask covers `OP` and `SUB`, and no two rows agree on these two fields. -/
theorem opcodeTable_disjoint {w : Word} {r q : OpcodeRow} (hr : r ∈ opcodeTable) (hq : q ∈ opcodeTable)
    (hwr : w &&& r.mask = r.matchBits) (hwq : w &&& q.mask = q.matchBits) : r = q := by
  have hmask : ∀ r ∈ opcodeTable, r.mask &&& 0xFF00#16 = 0xFF00#16 := by decide
  have hfields : ∀ r ∈ opcodeTable, ∀ q ∈ opcodeTable,
      r.matchBits &&& 0xFF00#16 = q.matchBits &&& 0xFF00#16 → r = q := by decide
  have hhigh : ∀ r ∈ opcodeTable, w &&& r.mask = r.matchBits → r.matchBits &&& 0xFF00#16 = w &&& 0xFF00#16 :=
    fun r hr h => by rw [← h, BitVec.and_assoc, hmask r hr]
  exact hfields r hr q hq ((hhigh r hr hwr).trans (hhigh q hq hwq).symm)

/-- A command's operand lies outside its row's mask (R36). -/
theorem Instr.imm_and_mask (i : Instr) : i.imm.setWidth 16 &&& i.row.mask = 0#16 := by
  have hbyte : ∀ v : Byte, v.setWidth 16 &&& 0xFF00#16 = 0#16 := by decide +kernel
  cases i with
  | ckSym v => exact hbyte v
  | ckHi c => exact hbyte c
  | ckLo c => exact hbyte c
  | rgPush v => exact hbyte v
  | rgInit d => cases d <;> decide
  | rgFlush p => cases p <;> decide
  | _ => decide

theorem Instr.matchBits_and_mask (i : Instr) : i.row.matchBits &&& i.row.mask = i.row.matchBits := by
  have htable : ∀ r ∈ opcodeTable, r.matchBits &&& r.mask = r.matchBits := by decide
  exact htable _ i.row_mem_opcodeTable

/-- The word of a command matches the command's row. -/
theorem encode_and_mask (i : Instr) : encode i &&& i.row.mask = i.row.matchBits := by
  rw [encode, BitVec.and_or_distrib_right, i.matchBits_and_mask, i.imm_and_mask, BitVec.or_zero]

@[simp] theorem Direction.bit_ofBit (b : Bool) : (Direction.ofBit b).bit = b := by cases b <;> rfl

@[simp] theorem Padding.bit_ofBit (b : Bool) : (Padding.ofBit b).bit = b := by cases b <;> rfl

/-- A word is a command's if it matches the command's row and its other bits are the operand. -/
theorem encode_eq_of_matches {i : Instr} {w : Word} (h : w &&& i.row.mask = i.row.matchBits)
    (himm : i.imm.setWidth 16 = w &&& ~~~i.row.mask) : encode i = w := by
  rw [encode, himm, ← h, ← BitVec.and_or_distrib_left, BitVec.or_not_self, BitVec.and_allOnes]

/-- The operand bits of a row with an 8-bit operand. -/
theorem lowByte_setWidth (w : Word) : (w.setWidth 8).setWidth 16 = w &&& ~~~0xFF00#16 := by
  apply BitVec.eq_of_toNat_eq
  have hmod : w.toNat &&& 255 = w.toNat % 256 := Nat.and_two_pow_sub_one_eq_mod w.toNat 8
  have hlt : w.toNat % 256 < 65536 := by omega
  simp [hmod, hlt]

/-- The operand bit of a row with a 1-bit operand. -/
theorem lowBit_setWidth (w : Word) : (if w.getLsbD 0 then 1#8 else 0#8).setWidth 16 = w &&& ~~~0xFFFE#16 := by
  apply BitVec.eq_of_toNat_eq
  cases hb : w.getLsbD 0 <;> simp_all [BitVec.getLsbD, Nat.testBit_zero]

/-- A word that matches a row is the word of a command of that row: its other bits are the operand (R36). -/
theorem exists_encode_of_matches {w : Word} {r : OpcodeRow} (hr : r ∈ opcodeTable)
    (h : w &&& r.mask = r.matchBits) : ∃ i : Instr, i.row = r ∧ encode i = w := by
  have hbare : 0#16 = w &&& ~~~0xFFFF#16 := BitVec.and_zero.symm
  simp only [opcodeTable, List.map_cons, List.map_nil, List.mem_cons, List.not_mem_nil, or_false] at hr
  rcases hr with rfl | rfl | rfl | rfl | rfl | rfl | rfl | rfl | rfl | rfl
  · exact ⟨.ckInit, rfl, encode_eq_of_matches h hbare⟩
  · exact ⟨.ckSym (w.setWidth 8), rfl, encode_eq_of_matches h (lowByte_setWidth w)⟩
  · exact ⟨.ckHi (w.setWidth 8), rfl, encode_eq_of_matches h (lowByte_setWidth w)⟩
  · exact ⟨.ckLo (w.setWidth 8), rfl, encode_eq_of_matches h (lowByte_setWidth w)⟩
  · exact ⟨.ckVfy, rfl, encode_eq_of_matches h hbare⟩
  · exact ⟨.ckFin, rfl, encode_eq_of_matches h hbare⟩
  · exact ⟨.ckRd, rfl, encode_eq_of_matches h hbare⟩
  · refine ⟨.rgInit (.ofBit (w.getLsbD 0)), rfl, encode_eq_of_matches h ?_⟩
    rw [Instr.imm, Direction.bit_ofBit]
    exact lowBit_setWidth w
  · exact ⟨.rgPush (w.setWidth 8), rfl, encode_eq_of_matches h (lowByte_setWidth w)⟩
  · refine ⟨.rgFlush (.ofBit (w.getLsbD 0)), rfl, encode_eq_of_matches h ?_⟩
    rw [Instr.imm, Padding.bit_ofBit]
    exact lowBit_setWidth w

/-- Settles O7: a word matches a row exactly if it is the encoding of a command of that row. -/
theorem decoderFollowsOpcodeTable : Obligations.DecoderFollowsOpcodeTable := by
  refine ⟨rfl, fun _ _ _ => opcodeTable_disjoint, Instr.row_mem_opcodeTable, fun w r hr => ⟨fun h => ?_, ?_⟩⟩
  · obtain ⟨i, rfl, rfl⟩ := exists_encode_of_matches hr h
    exact ⟨i, decode_encode i, rfl, rfl⟩
  · rintro ⟨i, hd, rfl, -⟩
    rw [← encode_of_decode hd, encode_and_mask]

/-! ### The illegal words -/

theorem exists_illegal_iff_not_wellFormed {w : Word} :
    (∃ why, decode w = .illegal why) ↔ (fieldsOf w).wellFormed = false := by
  rw [← decode_isSome_iff_wellFormed]
  cases decode w <;> simp [Decoded.instr?]

/-! R39's three ways of being illegal, over the numbers of the fields. -/

theorem Fields.unitAssigned_eq_false_iff (f : Fields) :
    f.unitAssigned = false ↔ f.op.toNat ≠ 1 ∧ f.op.toNat ≠ 2 := by
  simp [Fields.unitAssigned, ← BitVec.toNat_inj]

theorem Fields.operationAssigned_eq_false_iff (f : Fields) : f.operationAssigned = false ↔
    (f.op.toNat = 1 ∧ 7 ≤ f.sub.toNat) ∨ (f.op.toNat = 2 ∧ 3 ≤ f.sub.toNat) := by
  unfold Fields.operationAssigned
  split <;> rename_i h1
  · rw [h1, decide_eq_false_iff_not, BitVec.toNat_ofNat]
    omega
  · split <;> rename_i h2
    · rw [h2, decide_eq_false_iff_not, BitVec.toNat_ofNat]
      omega
    · simp_all [← BitVec.toNat_inj]

/-- `IMM[7:1]`, the must-be-zero bits of a 1-bit operand. -/
theorem extractLsb'_one_seven_eq_zero_iff (imm : BitVec 8) : imm.extractLsb' 1 7 = 0#7 ↔ imm.toNat / 2 = 0 := by
  rw [← BitVec.toNat_inj, BitVec.extractLsb'_toNat, Nat.shiftRight_eq_div_pow, BitVec.toNat_ofNat]
  omega

theorem Fields.mustBeZeroHeld_eq_false_iff (f : Fields) : f.mustBeZeroHeld = false ↔
    (f.op.toNat = 1 ∧ f.sub.toNat ∈ [0, 4, 5, 6] ∧ f.imm.toNat ≠ 0) ∨
    (f.op.toNat = 2 ∧ f.sub.toNat ∈ [0, 2] ∧ f.imm.toNat / 2 ≠ 0) := by
  have hbits := extractLsb'_one_seven_eq_zero_iff f.imm
  unfold Fields.mustBeZeroHeld
  split_ifs <;> simp_all [← BitVec.toNat_inj]

/-! ### The legal words -/

/-- Every value of an 8-bit operand. -/
def allBytes : List Byte := (List.finRange 256).map BitVec.ofFin

/-- Every command with every operand value. -/
def allCommands : List Instr :=
  [Instr.ckInit, .ckVfy, .ckFin, .ckRd, .rgInit .eightToFive, .rgInit .fiveToEight, .rgFlush .strict, .rgFlush .pad] ++
    allBytes.map Instr.ckSym ++ allBytes.map Instr.ckHi ++ allBytes.map Instr.ckLo ++ allBytes.map Instr.rgPush

theorem mem_allBytes (v : Byte) : v ∈ allBytes := List.mem_map.mpr ⟨v.toFin, List.mem_finRange _, rfl⟩

theorem allBytes_length : allBytes.length = 256 := by rw [allBytes, List.length_map, List.length_finRange]

theorem allBytes_nodup : allBytes.Nodup :=
  (List.nodup_finRange 256).map fun _ _ h => BitVec.ofFin.inj h

theorem mem_allCommands (i : Instr) : i ∈ allCommands := by
  cases i with
  | rgInit d => cases d <;> simp [allCommands]
  | rgFlush p => cases p <;> simp [allCommands]
  | _ => simp [allCommands, mem_allBytes]

theorem allCommands_length : allCommands.length = 1032 := by
  simp [allCommands, allBytes_length]

theorem allCommands_nodup : allCommands.Nodup := by
  have hsym : (allBytes.map Instr.ckSym).Nodup := allBytes_nodup.map fun _ _ => Instr.ckSym.inj
  have hhi : (allBytes.map Instr.ckHi).Nodup := allBytes_nodup.map fun _ _ => Instr.ckHi.inj
  have hlo : (allBytes.map Instr.ckLo).Nodup := allBytes_nodup.map fun _ _ => Instr.ckLo.inj
  have hpush : (allBytes.map Instr.rgPush).Nodup := allBytes_nodup.map fun _ _ => Instr.rgPush.inj
  simp [allCommands, List.nodup_append', List.disjoint_left, hsym, hhi, hlo, hpush]

theorem mem_map_encode_allCommands_iff {w : Word} : w ∈ allCommands.map encode ↔ ∃ i, decode w = .command i := by
  simp only [List.mem_map, mem_allCommands, true_and, decode_eq_command_iff]

/-! ### The answer to an illegal word -/

theorem takeCommand_illegal {w : Word} {why : Illegal} (h : decode w = .illegal why) (s : Machine.State) :
    Machine.takeCommand w s = .next (s.failIllegal w) := by
  simp only [Machine.takeCommand, h]

/-- Settles O8: a word is illegal if one of R39's three checks fails; the legal words are counted as the encodings of
the commands, one for each command and operand. -/
theorem illegalWordsAreAnsweredAndChangeNothing : Obligations.IllegalWordsAreAnsweredAndChangeNothing := by
  refine ⟨fun w => ?_, ⟨.unassignedUnit, by decide⟩, ⟨.unassignedUnit, by decide⟩,
    ⟨allCommands.map encode, allCommands_nodup.map encode_injective, by rw [List.length_map, allCommands_length],
      fun _ => mem_map_encode_allCommands_iff⟩,
    fun _ _ h s => ⟨takeCommand_illegal h s, rfl, rfl, rfl⟩⟩
  obtain ⟨hop, hsub, himm⟩ := fields_toNat w
  rw [exists_illegal_iff_not_wellFormed, Fields.wellFormed, Bool.and_eq_false_iff, Bool.and_eq_false_iff,
    Fields.unitAssigned_eq_false_iff, Fields.operationAssigned_eq_false_iff, Fields.mustBeZeroHeld_eq_false_iff,
    hop, hsub, himm, or_assoc, or_assoc]

end Sys2Proof
end

section
/-! PROOFS. The 40-bit response word and `DATA` (30_encoding.md R42, R43). -/

namespace Sys2Proof.Machine

/-! ### The fields of the response word -/

@[simp] theorem Response.word_err (r : Response) : r.word.extractLsb' 36 4 = r.err := by
  unfold Response.word
  rw [BitVec.extractLsb'_append_eq_of_le (by decide), BitVec.extractLsb'_append_eq_of_le (by decide)]
  exact BitVec.extractLsb'_append_eq_left

@[simp] theorem Response.word_reserved (r : Response) : r.word.getLsbD 35 = false := by
  unfold Response.word
  rw [BitVec.getLsbD_append, if_neg (by decide), BitVec.getLsbD_append, if_neg (by decide), BitVec.getLsbD_append]
  rfl

theorem Response.word_count (r : Response) (h : r.count < 8) : (r.word.extractLsb' 32 3).toNat = r.count := by
  unfold Response.word
  rw [BitVec.extractLsb'_append_eq_of_le (by decide)]
  exact (congrArg BitVec.toNat BitVec.extractLsb'_append_eq_right).trans (Nat.mod_eq_of_lt h)

@[simp] theorem Response.word_data (r : Response) : r.word.extractLsb' 0 32 = r.data :=
  BitVec.extractLsb'_append_eq_right

/-! ### `DATA` of an error and of a success -/

theorem Response.error_data_toNat (code : ErrorCode) (val : BitVec 16) :
    (Response.error code val).data.toNat = val.toNat :=
  BitVec.toNat_setWidth_of_le (by decide)

theorem ErrorCode.code_ne_zero (code : ErrorCode) : code.code ≠ 0#4 := by cases code <;> decide

theorem valid_data (b : Bool) : (Response.ok (.valid b)).data.getLsbD 0 = b ∧
    (Response.ok (.valid b)).data.extractLsb' 1 31 = 0#31 := by cases b <;> decide

/-- The two bits of `DATA` above a 30-bit value are zero. -/
theorem setWidth_topBits (x : BitVec 30) : (x.setWidth 32).extractLsb' 30 2 = 0#2 := by
  apply BitVec.eq_of_toNat_eq
  rw [BitVec.extractLsb'_toNat, BitVec.toNat_setWidth_of_le (by decide), Nat.shiftRight_eq_div_pow,
    Nat.div_eq_of_lt x.isLt]
  rfl

theorem residue_data (chk : Residue) : (Response.ok (.residue chk)).data.extractLsb' 0 30 = chk :=
  (BitVec.extractLsb'_setWidth_of_le (by decide)).trans BitVec.extractLsb'_eq_self

/-- A Symbol appended below shifts the fields above it. -/
theorem extractLsb'_append_symbol {n : Nat} (x : BitVec n) (s : Symbol) (start : Nat) :
    (x ++ s).extractLsb' (start + 5) 5 = x.extractLsb' start 5 := by
  rw [BitVec.extractLsb'_append_eq_of_le (Nat.le_add_left 5 start), Nat.add_sub_cancel]

theorem extractLsb'_append_symbol_zero {n : Nat} (x : BitVec n) (s : Symbol) : (x ++ s).extractLsb' 0 5 = s :=
  BitVec.extractLsb'_append_eq_right

/-- R43: each Symbol is read by leaving out those appended below it. -/
theorem checksum_data (s0 s1 s2 s3 s4 s5 : Symbol) {r : Response} (hr : r = .ok (.checksum s0 s1 s2 s3 s4 s5)) :
    r.data.extractLsb' 25 5 = s0 ∧ r.data.extractLsb' 20 5 = s1 ∧ r.data.extractLsb' 15 5 = s2 ∧
      r.data.extractLsb' 10 5 = s3 ∧ r.data.extractLsb' 5 5 = s4 ∧ r.data.extractLsb' 0 5 = s5 := by
  subst hr
  simp [Response.data, Output.data, BitVec.extractLsb'_setWidth_of_le, extractLsb'_append_symbol,
    extractLsb'_append_symbol_zero]

/-! ### The regrouper's groups -/

theorem packGroups_cons_getLsbD_of_lt (g : Byte) (gs : List Byte) {j : Nat} (h : j < 8) :
    (packGroups (g :: gs)).getLsbD j = g.getLsbD j := by
  have h32 : j < 32 := by omega
  simp [packGroups, h, h32]

theorem packGroups_cons_getLsbD_add (g : Byte) (gs : List Byte) (j : Nat) :
    (packGroups (g :: gs)).getLsbD (j + 8) = (decide (j + 8 < 32) && (packGroups gs).getLsbD j) := by
  simp [packGroups]

/-- R43: bit `j` of the packed groups is bit `j % 8` of group `j / 8`. -/
theorem packGroups_getLsbD {gs : List Byte} (h : gs.length ≤ 4) (j : Nat) :
    (packGroups gs).getLsbD j = (gs.getD (j / 8) 0#8).getLsbD (j % 8) := by
  induction gs generalizing j with
  | nil => simp [packGroups]
  | cons g gs ih =>
    rw [List.length_cons] at h
    by_cases hj : j < 8
    · rw [packGroups_cons_getLsbD_of_lt g gs hj, Nat.div_eq_of_lt hj, Nat.mod_eq_of_lt hj, List.getD_cons_zero]
    · obtain ⟨j, rfl⟩ : ∃ i, j = i + 8 := ⟨j - 8, by omega⟩
      rw [packGroups_cons_getLsbD_add, ih (by omega), Nat.add_div_right j (by decide), Nat.add_mod_right,
        List.getD_cons_succ]
      by_cases h32 : j + 8 < 32
      · rw [decide_eq_true h32, Bool.true_and]
      · rw [List.getD_eq_default _ _ (by omega), BitVec.getLsbD_zero, Bool.and_false]

theorem packGroups_extractLsb' {gs : List Byte} (h : gs.length ≤ 4) (k : Nat) :
    (packGroups gs).extractLsb' (8 * k) 8 = gs.getD k 0#8 := by
  apply BitVec.eq_of_getLsbD_eq
  intro i hi
  rw [BitVec.getLsbD_extractLsb', packGroups_getLsbD h, Nat.mul_add_div (by decide), Nat.mul_add_mod,
    Nat.div_eq_of_lt hi, Nat.mod_eq_of_lt hi]
  simp [hi]

theorem groups_count (gs : List Byte) : (Response.ok (.groups gs)).count = gs.length := List.length_map _

/-- Settles O40: the fields of the word, then `DATA` for an error and for each kind of output. -/
theorem responseWordFields : Obligations.ResponseWordFields := by
  refine ⟨fun r => ⟨r.word_err, r.word_reserved, fun h => r.word_count (by omega), r.word_data⟩,
    fun code val => ⟨Response.error_data_toNat code val, rfl, code.code_ne_zero⟩, fun _ => rfl, ⟨rfl, rfl⟩,
    fun b => ⟨rfl, valid_data b⟩, ?_, fun chk => ⟨rfl, residue_data chk, setWidth_topBits chk⟩, ?_⟩
  · intro s0 s1 s2 s3 s4 s5 r hr
    refine ⟨?_, ?_, checksum_data s0 s1 s2 s3 s4 s5 hr⟩
    · rw [hr]; rfl
    · rw [hr]; exact setWidth_topBits _
  · intro gs k h
    exact ⟨groups_count gs, packGroups_extractLsb' (by omega) k⟩

end Sys2Proof.Machine
end

section
/-! PROOFS. The assembler's lines (30_encoding.md R44, R46). -/

namespace Sys2Proof.Machine.Asm

/-! ### A number written in decimal -/

theorem decDigit_of_isDigit {c : Char} (h : c.isDigit = true) : decDigit c = some (c.toNat - '0'.toNat) := if_pos h

/-- A run of decimal digits writes the number that the library reads from it. -/
theorem digits_decimal {cs : List Char} (h : ∀ c ∈ cs, c.isDigit = true) (n : Nat) :
    digits 10 decDigit cs n = some (Nat.ofDigitChars 10 cs n) := by
  induction cs generalizing n with
  | nil => rfl
  | cons c cs ih =>
    obtain ⟨hc, hcs⟩ := List.forall_mem_cons.mp h
    rw [digits, decDigit_of_isDigit hc, Nat.ofDigitChars_cons]
    exact ih hcs _

theorem ne_of_isDigit {c d : Char} (hc : c.isDigit = true) (hd : d.isDigit = false) : c ≠ d := by
  rintro rfl
  rw [hc] at hd
  cases hd

/-- A run of decimal digits is one token. -/
theorem token_decimal {cs : List Char} (h : ∀ c ∈ cs, c.isDigit = true) : token cs = (cs, []) := by
  induction cs with
  | nil => rfl
  | cons c cs ih =>
    obtain ⟨hc, hcs⟩ := List.forall_mem_cons.mp h
    rw [token, ih hcs, if_neg (not_or.mpr ⟨ne_of_isDigit hc rfl, ne_of_isDigit hc rfl⟩)]

/-- A decimal token is not taken for a hexadecimal one, which has an `x` in it. -/
theorem operandOf_decimal {cs : List Char} (hne : cs ≠ []) (h : ∀ c ∈ cs, c.isDigit = true) :
    operandOf cs = .number (Nat.ofDigitChars 10 cs 0) := by
  unfold operandOf
  split
  · simp at h
  · rw [digits_decimal h]; rfl
  · exact absurd rfl hne

theorem skipSpaces_space_cons {c : Char} (h : c ≠ ' ') (cs : List Char) : skipSpaces (' ' :: c :: cs) = c :: cs := by
  simp [skipSpaces, h]

/-- A space and a decimal number after the mnemonic are a number as the operand. -/
theorem operand?_decimal {cs : List Char} (hne : cs ≠ []) (h : ∀ c ∈ cs, c.isDigit = true) :
    operand? (' ' :: cs) = some (some (.number (Nat.ofDigitChars 10 cs 0))) := by
  have hoperand := operandOf_decimal hne h
  have htoken := token_decimal h
  obtain ⟨c, cs, rfl⟩ := List.exists_cons_of_ne_nil hne
  have hc : c.isDigit = true := h c List.mem_cons_self
  have hskip : skipSpaces (' ' :: c :: cs) = c :: cs := skipSpaces_space_cons (ne_of_isDigit hc rfl) cs
  have hend : atEnd (' ' :: c :: cs) = false := by
    rw [atEnd, hskip]
    exact beq_false_of_ne (ne_of_isDigit hc rfl)
  rw [operand?, hend, hskip, if_neg Bool.false_ne_true]
  split
  · rename_i hquote
    exact absurd (List.cons.inj hquote).1 (ne_of_isDigit hc rfl)
  · rw [htoken, hoperand]; rfl

theorem operand?_toDigits (n : Nat) : operand? (' ' :: Nat.toDigits 10 n) = some (some (.number n)) := by
  rw [operand?_decimal Nat.toDigits_ne_nil fun _ => Nat.isDigit_of_mem_toDigits (by decide) (by decide),
    Nat.ofDigitChars_ten_toDigits]

/-! ### The lines of the commands -/

theorem byteOperand_toNat (v : Byte) : byteOperand (some (.number v.toNat)) = some v := by
  rw [byteOperand, if_pos (Nat.le_of_lt_succ v.isLt), BitVec.ofNat_toNat, BitVec.setWidth_eq]

/-- The line of a command with an 8-bit operand: its mnemonic, a space and the operand in decimal. -/
theorem line?_byte {mnemonic : List Char} {mk : Byte → Instr}
    (htoken : ∀ cs, token (skipSpaces (mnemonic ++ ' ' :: cs)) = (mnemonic, ' ' :: cs))
    (hcommand : ∀ o, command? mnemonic o = (byteOperand o).map mk) (v : Byte) :
    line? (mnemonic ++ ' ' :: Nat.toDigits 10 v.toNat) = some (mk v) := by
  rw [line?, htoken, operand?_toDigits, Option.bind_some, hcommand, byteOperand_toNat, Option.map_some]

/-- Settles O10: the lines with an 8-bit operand by reading decimals, the others evaluated. -/
theorem everyCommandHasALine : Obligations.EveryCommandHasALine :=
  ⟨fun v => ⟨line?_byte (mnemonic := "CK.SYM".toList) (fun _ => rfl) (fun _ => rfl) v,
      line?_byte (mnemonic := "CK.HI".toList) (fun _ => rfl) (fun _ => rfl) v,
      line?_byte (mnemonic := "CK.LO".toList) (fun _ => rfl) (fun _ => rfl) v,
      line?_byte (mnemonic := "RG.PUSH".toList) (fun _ => rfl) (fun _ => rfl) v⟩,
    by decide, by decide, by decide, by decide, by decide, by decide, by decide, by decide⟩

/-! ### The worked encodings -/

/-- Settles O9: the failing `CK.SYM 32` by its law, the words and lines of the table evaluated. -/
theorem workedEncodings : Obligations.WorkedEncodings :=
  ⟨by decide, by decide, by decide, by decide, exec_ckSym_of_exceeds (by decide), by decide, by decide, by decide,
    by decide, by decide, by decide, by decide, by decide, by decide, by decide, by decide, by decide, by decide,
    by decide, by decide, by decide⟩

end Sys2Proof.Machine.Asm
end

section
/-! PROOFS. The checksum step as a function (40_checksum_engine.md R48, R49): its arithmetic on numbers, why it is a
bijection for each Symbol, and the six Symbols that lead from one residue to another. -/

namespace Sys2Proof.Machine

/-! ### The step as R48's arithmetic -/

/-- What R48's loop XORs in for the Symbol shifted out. -/
def foldBack (top : Symbol) : Residue :=
  genTerm top 0 ^^^ genTerm top 1 ^^^ genTerm top 2 ^^^ genTerm top 3 ^^^ genTerm top 4

theorem ckStep_eq_foldBack (chk : Residue) (v : Symbol) :
    ckStep chk v = ((chk &&& 0x1ffffff#30) <<< 5 ^^^ v.setWidth 30) ^^^ foldBack (topSymbol chk) := by
  unfold ckStep foldBack
  ac_rfl

theorem topSymbol_getLsbD (chk : Residue) (i : Fin 5) : (topSymbol chk).getLsbD i = chk.toNat.testBit (25 + i) := by
  simp [topSymbol, BitVec.testBit_toNat]

/-- `(chk & 0x1ffffff) << 5` fits in 30 bits, so the shift of R48 loses nothing. -/
theorem shifted_toNat (chk : Residue) :
    ((chk &&& 0x1ffffff#30) <<< 5).toNat = (chk.toNat &&& 0x1ffffff) <<< 5 := by
  have hle : chk.toNat &&& 0x1ffffff ≤ 0x1ffffff := Nat.and_le_right
  rw [BitVec.toNat_shiftLeft, BitVec.toNat_and, BitVec.toNat_ofNat, Nat.mod_eq_of_lt (a := 0x1ffffff) (by decide)]
  exact Nat.mod_eq_of_lt (by rw [Nat.shiftLeft_eq]; omega)

theorem symbol_setWidth_toNat (v : Symbol) : (v.setWidth 30).toNat = v.toNat :=
  BitVec.toNat_setWidth_of_le (by decide)

/-- One pass of R48's loop on numbers: it XORs in the term that `genTerm` names. -/
theorem loopPass_eq_xor_genTerm (chk : Residue) (c : Nat) (i : Fin 5) :
    (if ((chk.toNat >>> 25) >>> i.val) &&& 1 = 1
      then c ^^^ [0x3b6a57b2, 0x26508e6d, 0x1ea119fa, 0x3d4233dd, 0x2a1462b3].getD i.val 0 else c) =
    c ^^^ (genTerm (topSymbol chk) i).toNat := by
  have hgen : [0x3b6a57b2, 0x26508e6d, 0x1ea119fa, 0x3d4233dd, 0x2a1462b3].getD i.val 0 = (gen i).toNat := by
    revert i; decide
  rw [hgen, genTerm, topSymbol_getLsbD, Nat.testBit, Nat.shiftRight_add, Nat.and_comm 1]
  rcases Nat.mod_two_eq_zero_or_one ((chk.toNat >>> 25) >>> i.val) with h | h <;> simp [Nat.and_one_is_mod, h]

/-- Settles O14: XORing terms in commutes, so any order of the five gives what `ckStep` writes out. -/
theorem ckStepFollowsPseudocode : Obligations.CkStepFollowsPseudocode := by
  intro chk v order horder
  simp only [loopPass_eq_xor_genTerm]
  rw [horder.foldl_eq' (fun i _ j _ c => Nat.xor_right_comm c _ _), ← shifted_toNat, ← symbol_setWidth_toNat]
  simp only [List.foldl_cons, List.foldl_nil, ← BitVec.toNat_xor]
  rfl

/-! ### The step is a bijection -/

theorem topSymbol_eq_zero_iff (chk : Residue) : topSymbol chk = 0#5 ↔ chk.toNat < 2 ^ 25 := by
  have hlt := chk.isLt
  rw [← BitVec.toNat_inj, topSymbol, BitVec.toNat_setWidth, BitVec.toNat_ushiftRight, Nat.shiftRight_eq_div_pow]
  simp only [BitVec.toNat_ofNat]
  omega

/-- The low five bits of the constants are linearly independent: they show which Symbol was folded back. -/
theorem eq_zero_of_foldBack_low {top : Symbol} (h : (foldBack top).setWidth 5 = 0#5) : top = 0#5 := by
  revert top; decide

theorem ckStep_zero_low (chk : Residue) : (ckStep chk 0#5).setWidth 5 = (foldBack (topSymbol chk)).setWidth 5 := by
  have hlow : ((chk &&& 0x1ffffff#30) <<< 5).setWidth 5 = 0#5 := by
    ext k hk
    simp
  rw [ckStep_eq_foldBack, BitVec.setWidth_xor, BitVec.setWidth_xor, hlow]
  simp

/-- R49: zero comes from zero only. With the low five bits zero nothing was folded back, and then the residue itself
was moved up. -/
theorem ckStep_zero_eq_zero_iff (chk : Residue) : ckStep chk 0#5 = 0#30 ↔ chk = 0#30 := by
  constructor
  · intro h
    have hlow : (foldBack (topSymbol chk)).setWidth 5 = 0#5 := by rw [← ckStep_zero_low, h]; rfl
    have hlt : chk.toNat < 2 ^ 25 := (topSymbol_eq_zero_iff chk).mp (eq_zero_of_foldBack_low hlow)
    have hmul := ckStep_of_lt chk 0#5 hlt
    rw [h, BitVec.toNat_ofNat, BitVec.toNat_ofNat] at hmul
    exact BitVec.eq_of_toNat_eq (by rw [BitVec.toNat_ofNat]; omega)
  · rintro rfl
    decide

/-- By linearity, two residues with one image differ by one that goes to zero. -/
theorem ckStep_injective (v : Symbol) : Function.Injective fun chk => ckStep chk v := by
  intro a b h
  have hdiff : ckStep (a ^^^ b) 0#5 = 0#30 := by
    rw [← BitVec.xor_self (x := v), ckStep_xor, BitVec.xor_eq_zero_iff]
    exact h
  exact BitVec.xor_eq_zero_iff.mp ((ckStep_zero_eq_zero_iff _).mp hdiff)

theorem ckStep_bijective (v : Symbol) : Function.Bijective fun chk => ckStep chk v :=
  Finite.injective_iff_bijective.mp (ckStep_injective v)

/-- The residue left shows the last Symbol absorbed. -/
theorem ckStep_symbol_injective (chk : Residue) : Function.Injective (ckStep chk) := by
  intro a b h
  rw [ckStep_eq, ckStep_eq chk b, BitVec.xor_right_inj] at h
  exact BitVec.eq_of_toNat_eq (by rw [← symbol_setWidth_toNat, h, symbol_setWidth_toNat])

theorem absorbAll_injective (vs : List Symbol) : Function.Injective fun chk => absorbAll chk vs := by
  induction vs with
  | nil => exact Function.injective_id
  | cons v vs ih => exact ih.comp (ckStep_injective v)

/-! ### Six Symbols reach every residue -/

/-- The six groups of `m`, most significant first (R25, R55). -/
def checksumGroups (m : Residue) : List Symbol := (List.range Config.csumLen).map (checksumGroup m)

@[simp] theorem checksumGroups_length (m : Residue) : (checksumGroups m).length = 6 := rfl

theorem checksumGroup_toNat (m : Residue) (p : Nat) : (checksumGroup m p).toNat = m.toNat / 2 ^ (5 * (5 - p)) % 32 := by
  rw [checksumGroup, BitVec.toNat_setWidth, BitVec.toNat_ushiftRight, Nat.shiftRight_eq_div_pow]

/-- From zero the residue is the groups absorbed so far, side by side. -/
theorem absorbAll_zero_groups (m : Residue) {k : Nat} (hk : k ≤ 6) :
    (absorbAll 0#30 ((List.range k).map (checksumGroup m))).toNat = m.toNat / 2 ^ (5 * (6 - k)) := by
  induction k with
  | zero => exact (Nat.div_eq_of_lt m.isLt).symm
  | succ k ih =>
    have hprev := ih (by omega)
    have hpow : 2 ^ (5 * (6 - k)) = 2 ^ (5 * (5 - k)) * 32 := by
      rw [show 5 * (6 - k) = 5 * (5 - k) + 5 by omega, Nat.pow_add]
    have hlt : m.toNat / 2 ^ (5 * (6 - k)) < 2 ^ 25 := by
      have hpos := Nat.two_pow_pos (5 * (5 - k))
      have hm := m.isLt
      rw [hpow, Nat.div_lt_iff_lt_mul (by omega)]
      omega
    rw [List.range_succ, List.map_append, absorbAll_append, List.map_singleton, absorbAll_cons, absorbAll_nil,
      ckStep_of_lt _ _ (hprev ▸ hlt), hprev, checksumGroup_toNat, hpow, ← Nat.div_div_eq_div_mul,
      show 6 - (k + 1) = 5 - k by omega]
    omega

theorem absorbAll_zero_checksumGroups (m : Residue) : absorbAll 0#30 (checksumGroups m) = m :=
  BitVec.eq_of_toNat_eq ((absorbAll_zero_groups m le_rfl).trans (Nat.div_one _))

/-- Absorbing six Symbols adds their groups to what six zero Symbols leave. -/
theorem absorbAll_checksumGroups (chk m : Residue) :
    absorbAll chk (checksumGroups m) = absorbAll chk (List.replicate 6 0#5) ^^^ m := by
  have hzip : List.zipWith (· ^^^ ·) (List.replicate 6 0#5) (checksumGroups m) = checksumGroups m := by
    simp [checksumGroups, Config.csumLen, List.range_succ, List.replicate]
  have hxor := absorbAll_xor (List.replicate 6 0#5) (checksumGroups m) chk 0#30 rfl
  rwa [BitVec.xor_zero, hzip, absorbAll_zero_checksumGroups] at hxor

theorem absorbAll_groups_to (a b : Residue) :
    absorbAll a (checksumGroups (absorbAll a (List.replicate 6 0#5) ^^^ b)) = b := by
  rw [absorbAll_checksumGroups, ← BitVec.xor_assoc, BitVec.xor_self, BitVec.zero_xor]

theorem ckStep_zero_left (v : Symbol) : ckStep 0#30 v = v.setWidth 30 := by
  rw [ckStep_eq, (ckStep_zero_eq_zero_iff 0#30).mpr rfl, BitVec.zero_xor]

/-- R49 item 5: the corner values. -/
theorem ckStep_cornerValues :
    ckStep 1#30 0#5 = 32#30 ∧
    ckStep 0x02000000#30 0#5 = gen 0 ∧ ckStep 0x04000000#30 0#5 = gen 1 ∧ ckStep 0x08000000#30 0#5 = gen 2 ∧
    ckStep 0x10000000#30 0#5 = gen 3 ∧ ckStep 0x20000000#30 0#5 = gen 4 ∧
    ckStep 0x3e000000#30 0#5 = 0x14cd914b#30 ∧ ckStep 0x3fffffff#30 31#5 = 0x2b326eb4#30 ∧
    ckStep 0x3fffffff#30 0#5 = 0x2b326eab#30 ∧ ckStep 0x1ffffff#30 0#5 = 0x3fffffe0#30 := by decide

/-- Settles O15: R49's items, each a lemma above or in Laws/Ops.lean. -/
theorem ckStepProperties : Obligations.CkStepProperties :=
  ⟨fun chk v => (ckStep chk v).isLt, topSymbol_eq_zero_iff, ckStep_of_lt, ckStep_xor, ckStep_eq, ckStep_bijective,
    ckStep_zero_eq_zero_iff, ⟨ckStep_zero_left, ckStep_cornerValues⟩,
    fun a b => ⟨_, checksumGroups_length _, absorbAll_groups_to a b⟩⟩

end Sys2Proof.Machine
end

section
/-! PROOFS. The seven checksum-engine commands (40_checksum_engine.md R50 to R56), one statement each. -/

namespace Sys2Proof.Machine

/-- A response delivered is the one element more at the end of `responses`. -/
theorem responses_eq_append_iff {s t : State} {r r' : Response} (h : t.responses = s.responses ++ [r]) :
    t.responses = s.responses ++ [r'] ↔ r = r' := by
  rw [h, List.append_cancel_left_eq, List.singleton_inj]

/-! ### CK.INIT -/

theorem exec_ckInit (s : State) : exec .ckInit s = .next ((s.setChk 1#30).ok .nothing) := rfl

theorem chk_of_exec_ckInit {s t : State} (h : exec .ckInit s = .next t) : t.chk = 1#30 := by
  cases h
  rfl

/-- Settles O16: `CK.INIT` writes 1 whatever `CHK` holds, and so writes nothing new when `CHK` is 1 already. -/
theorem ckInitStartsSession : Obligations.CkInitStartsSession := by
  refine ⟨rfl, exec_ckInit, fun s t h => ?_⟩
  rw [exec_ckInit, ← chk_of_exec_ckInit h]
  rfl

/-! ### The absorbing commands -/

/-- Settles O17: the two branches of the range check. -/
theorem ckSymAbsorbsOrRefusesValue : Obligations.CkSymAbsorbsOrRefusesValue := by
  intro v s
  refine ⟨rfl, fun hle => ?_, fun hgt => ⟨?_, rfl⟩⟩
  · rw [exec_ckSym_of_le hle, symbolOf_eq]
    rfl
  · rw [exec_ckSym_of_exceeds ((exceedsSymbol_iff v).mpr hgt), setWidth_eq_ofNat]
    rfl

theorem exec_ckHi (c : Byte) (s : State) : exec (.ckHi c) s = .next (s.absorb (highPart c)) := rfl

theorem exec_ckLo (c : Byte) (s : State) : exec (.ckLo c) s = .next (s.absorb (lowPart c)) := rfl

theorem highPart_toNat (c : Byte) : (highPart c).toNat = c.toNat / 32 := by
  have hc := c.isLt
  rw [highPart_eq, BitVec.toNat_ofNat]
  omega

/-- Settles O18: `CK.HI c` absorbs `c / 32`, whose value in each range of `c` is arithmetic. -/
theorem ckHiAbsorbsHighBits : Obligations.CkHiAbsorbsHighBits := by
  intro c s
  have hc := c.isLt
  refine ⟨rfl, ?_, fun hlo hhi => ?_, fun hlt => ?_, fun hge => ?_, ?_, ?_⟩
  · rw [exec_ckHi, highPart_eq, Nat.shiftRight_eq_div_pow]
    rfl
  · rw [highPart_toNat]
    simp only [List.mem_cons, List.not_mem_nil, or_false]
    omega
  · rw [highPart_toNat]
    omega
  · rw [highPart_toNat]
    simp only [List.mem_cons, List.not_mem_nil, or_false]
    omega
  · rintro rfl
    decide
  · rintro rfl
    decide

/-- `c & 31` passes the range check of `CK.SYM` and is the Symbol that `CK.LO c` absorbs. -/
theorem exec_ckSym_and (c : Byte) (s : State) : exec (.ckSym (c &&& 31#8)) s = exec (.ckLo c) s := by
  have hand : (c &&& 31#8).toNat = c.toNat % 32 := by
    rw [BitVec.toNat_and]
    exact Nat.and_two_pow_sub_one_eq_mod c.toNat 5
  rw [exec_ckSym_of_le (by omega), symbolOf_eq, hand, exec_ckLo, lowPart_eq]

/-- Settles O19: what `CK.LO c` absorbs depends on `c % 32` only. -/
theorem ckLoAbsorbsLowBits : Obligations.CkLoAbsorbsLowBits := by
  intro c s
  refine ⟨rfl, ?_, (exec_ckSym_and c s).symm, fun e he => ?_⟩
  · rw [exec_ckLo, lowPart_eq, Nat.and_two_pow_sub_one_eq_mod c.toNat 5]
    rfl
  · rw [exec_ckLo, exec_ckLo, lowPart_eq, lowPart_eq, he]

/-! ### CK.VFY and CK.RD -/

theorem exec_ckVfy (s : State) : exec .ckVfy s = .next (s.ok (.valid (decide (s.chk = 1#30)))) := rfl

theorem exec_ckRd (s : State) : exec .ckRd s = .next (s.ok (.residue s.chk)) := rfl

/-- Settles O20: the answer is read off `CHK`, which `CK.INIT` and reset set to 1 and `CK.VFY` leaves. -/
theorem ckVfyAnswersWhetherResidueIsOne : Obligations.CkVfyAnswersWhetherResidueIsOne := by
  refine ⟨rfl, exec_ckVfy, rfl, rfl, fun s t h => ?_, rfl, fun s t r h hr => ?_⟩
  · rw [exec_ckVfy, decide_eq_true (chk_of_exec_ckInit h)]
    rfl
  · obtain rfl := next_inj ((exec_ckVfy s).symm.trans h)
    obtain rfl := (responses_eq_append_iff (State.ok_responses s _)).mp hr
    exact exec_ckVfy _

/-- Settles O22: the answer is `CHK` itself, and `CK.VFY` compares it with 1. -/
theorem ckRdAnswersResidue : Obligations.CkRdAnswersResidue := by
  refine ⟨rfl, exec_ckRd, fun _ => rfl, fun s t h => ?_, rfl, fun s t u ht hu => ?_⟩
  · have hex := exec_ckRd t
    rw [chk_of_exec_ckInit h] at hex
    exact hex
  · obtain rfl := next_inj ((exec_ckVfy s).symm.trans ht)
    obtain rfl := next_inj ((exec_ckRd s).symm.trans hu)
    rw [responses_eq_append_iff (State.ok_responses s _), responses_eq_append_iff (State.ok_responses s _)]
    simp

/-! ### CK.FIN -/

theorem checksumGroup_eq_extractLsb' (m : Residue) (p : Nat) : checksumGroup m p = m.extractLsb' (5 * (5 - p)) 5 := by
  apply BitVec.eq_of_toNat_eq
  rw [checksumGroup, BitVec.toNat_setWidth, BitVec.toNat_ushiftRight, BitVec.extractLsb'_toNat]

theorem checksumGroups_eq_extractLsb' (m : Residue) :
    checksumGroups m = [m.extractLsb' 25 5, m.extractLsb' 20 5, m.extractLsb' 15 5, m.extractLsb' 10 5,
      m.extractLsb' 5 5, m.extractLsb' 0 5] := by
  simp [checksumGroups, Config.csumLen, List.range_succ, checksumGroup_eq_extractLsb']

/-- R55 with `m` of `CK.FIN` cut into its groups by position. -/
theorem exec_ckFin (s : State) : exec .ckFin s = .next (s.ok (.checksum
    ((checksumValue s.chk).extractLsb' 25 5) ((checksumValue s.chk).extractLsb' 20 5)
    ((checksumValue s.chk).extractLsb' 15 5) ((checksumValue s.chk).extractLsb' 10 5)
    ((checksumValue s.chk).extractLsb' 5 5) ((checksumValue s.chk).extractLsb' 0 5))) := by
  simp only [exec, execCkFin, checksumGroup_eq_extractLsb']

/-- R55 item 1 as a fact about residues: the XOR with 1 makes the six groups lead back to 1. -/
theorem absorbAll_checksumValue (chk : Residue) : absorbAll chk (checksumGroups (checksumValue chk)) = 1#30 :=
  absorbAll_groups_to chk 1#30

theorem checksumGroups_toNat (m : Residue) :
    (checksumGroups m).map BitVec.toNat = (List.range 6).map fun p => (m.toNat >>> (5 * (5 - p))) &&& 31 := by
  rw [checksumGroups, List.map_map]
  refine List.map_congr_left fun p _ => ?_
  rw [Function.comp_apply, checksumGroup_toNat, Nat.shiftRight_eq_div_pow]
  exact (Nat.and_two_pow_sub_one_eq_mod _ 5).symm

/-- R55 item 4: of the groups the XOR with 1 changes the last only. -/
theorem extractLsb'_xor_one (t : Residue) :
    (t ^^^ 1#30).extractLsb' 25 5 = t.extractLsb' 25 5 ∧ (t ^^^ 1#30).extractLsb' 20 5 = t.extractLsb' 20 5 ∧
      (t ^^^ 1#30).extractLsb' 15 5 = t.extractLsb' 15 5 ∧ (t ^^^ 1#30).extractLsb' 10 5 = t.extractLsb' 10 5 ∧
      (t ^^^ 1#30).extractLsb' 5 5 = t.extractLsb' 5 5 ∧ (t ^^^ 1#30).extractLsb' 0 5 ≠ t.extractLsb' 0 5 := by
  simp [BitVec.extractLsb'_xor]

/-- Settles O21: the response is `exec_ckFin`, and each consequence a lemma about the groups of `m`. -/
theorem ckFinAnswersChecksum : Obligations.CkFinAnswersChecksum := by
  refine ⟨rfl, fun s => ?_, fun s t h => ?_⟩
  · have houts := checksumGroups_eq_extractLsb' (checksumValue s.chk)
    refine ⟨exec_ckFin s, rfl, rfl, ?_, houts ▸ absorbAll_checksumValue s.chk, fun u hu => ?_, extractLsb'_xor_one _⟩
    · exact (congrArg (List.map BitVec.toNat) houts).symm.trans (checksumGroups_toNat (checksumValue s.chk))
    · obtain rfl := next_inj ((exec_ckFin s).symm.trans hu)
      exact exec_ckFin _
  · have hex := exec_ckFin t
    rw [chk_of_exec_ckInit h, show checksumValue 1#30 = 0x3b6a57b3#30 by decide] at hex
    exact hex

end Sys2Proof.Machine
end

section
/-! PROOFS. A run of absorbed Symbols closed by `CK.VFY` (40_checksum_engine.md R54, R55, R58): the six Symbols of
`CK.FIN` end it with 1, and two runs that differ in one Symbol do not both end with 1. -/

namespace Sys2Proof.Machine

/-- Absorbed Symbols and `CK.VFY`: the residue is the fold over the Symbols, and the answer is whether it is 1. -/
theorem run_ckSyms_ckVfy (s : State) (vs : List Symbol) :
    run (vs.length + 1) (s.present (vs.map (fun v => Instr.ckSym (v.setWidth 8)) ++ [.ckVfy])) = .next { s with
      chk := absorbAll s.chk vs
      responses := s.responses ++ List.replicate vs.length (.ok .nothing) ++
        [.ok (.valid (decide (absorbAll s.chk vs = 1#30)))] } := by
  have hsyms : List.Forall₂ (fun i v => ∀ u : State, exec i u = .next (u.absorb v))
      (vs.map fun v => Instr.ckSym (v.setWidth 8)) vs :=
    List.forall₂_map_left_iff.mpr (List.forall₂_same.mpr fun v _ => exec_ckSym_setWidth v)
  have hrun := run_present_append (js := [.ckVfy]) (run_absorbing hsyms s) rfl 1
  rw [List.length_map] at hrun
  rw [hrun, run_present (exec_ckVfy _)]
  rfl

/-- Settles O45: the six Symbols of `CK.FIN` lead from the residue it left to 1. -/
theorem checksumChecksItself : Obligations.ChecksumChecksItself := by
  intro s
  refine ⟨_, _, _, _, _, _, _, exec_ckFin s, State.ok_responses s _, ?_⟩
  rw [← checksumGroups_eq_extractLsb']
  refine (run_ckSyms_ckVfy _ (checksumGroups (checksumValue s.chk))).trans ?_
  rw [State.ok_chk, absorbAll_checksumValue]
  rfl

/-- R58 as a fact about residues: the changed Symbol changes the residue there, and equal Symbols behind it keep
different residues different. -/
theorem absorbAll_substitution_ne (chk : Residue) (vs ws : List Symbol) {a b : Symbol} (hab : a ≠ b) :
    absorbAll chk (vs ++ a :: ws) ≠ absorbAll chk (vs ++ b :: ws) := by
  rw [absorbAll_append, absorbAll_append, absorbAll_cons, absorbAll_cons]
  exact (absorbAll_injective ws).ne ((ckStep_symbol_injective _).ne hab)

/-- Settles O46: both runs are `run_ckSyms_ckVfy`, and their residues differ. -/
theorem singleSubstitutionIsDetected : Obligations.SingleSubstitutionIsDetected := by
  intro s vs ws a b hab
  have hlen (c : Symbol) : vs.length + ws.length + 2 = (vs ++ c :: ws).length + 1 := by
    rw [List.length_append, List.length_cons, Nat.add_assoc, Nat.add_assoc]
  refine ⟨_, _, hlen a ▸ run_ckSyms_ckVfy s (vs ++ a :: ws), hlen b ▸ run_ckSyms_ckVfy s (vs ++ b :: ws), ?_⟩
  intro (hvalid : absorbAll s.chk (vs ++ a :: ws) = 1#30)
  have hinvalid : absorbAll s.chk (vs ++ b :: ws) ≠ 1#30 := fun h =>
    absorbAll_substitution_ne s.chk vs ws hab (hvalid.trans h.symm)
  refine ⟨?_, hinvalid, ?_⟩
  · rw [List.getLast?_concat, decide_eq_true hvalid]
  · rw [List.getLast?_concat, decide_eq_false hinvalid]

end Sys2Proof.Machine
end

section
/-! PROOFS. The groups that the regrouper emits (41_bit_regrouper.md R63 to R65, R67): those of one push, of a list of
pushes and of a padded flush, how many they are, and that each is below `2^toBits`. -/

namespace Sys2Proof.Machine

/-- Settles O5: the two rows of R61's table. -/
theorem widthsOfEachDirection : Obligations.WidthsOfEachDirection := ⟨rfl, rfl, rfl, rfl, rfl, rfl⟩

/-! ### The groups of pushes and of a padded flush -/

/-- The groups a push of a value in range emits (R63). -/
def pushGroups (s : State) (v : Byte) : List Byte :=
  (emitGroups s.mode (pushBits s.acc s.mode v) (bitsHeld s) (bitsHeld s)).1

/-- The groups that pushes of values in range emit, earliest first. -/
def groupsOfPushes : State → List Byte → List Byte
  | _, [] => []
  | s, v :: vs => pushGroups s v ++ groupsOfPushes (s.append v) vs

/-- The groups `RG.FLUSH 1` emits: the would-be final group, if a bit is left over (R65). -/
def padGroups (s : State) : List Byte := if 0 < s.bits.toNat then [finalGroup s] else []

theorem pushResponse_eq (s : State) (v : Byte) : pushResponse s v = .ok (.groups (pushGroups s v)) := rfl

theorem exec_rgFlush_pad (s : State) : exec (.rgFlush .pad) s = .next (s.endSession (padGroups s)) := rfl

theorem pushResponses_outs (s : State) (vs : List Byte) :
    (pushResponses s vs).flatMap Response.outs = (groupsOfPushes s vs).map BitVec.toNat := by
  induction vs generalizing s with
  | nil => rfl
  | cons v vs ih =>
    rw [pushResponses, groupsOfPushes, List.flatMap_cons, ih, List.map_append]
    rfl

theorem pushResponses_err {s : State} {vs : List Byte} : ∀ r ∈ pushResponses s vs, r.err = 0#4 := by
  induction vs generalizing s with
  | nil => exact nofun
  | cons v vs ih => exact List.forall_mem_cons.mpr ⟨rfl, ih⟩

/-! ### Every group is below `2^toBits` -/

theorem pushGroups_lt {s : State} {v : Byte} : ∀ g ∈ pushGroups s v, g.toNat < 2 ^ toBits s.mode := by
  rw [pushGroups, emitGroups_fst _ _ _ _ le_rfl, List.forall_mem_map]
  exact fun _ _ => groupAt_lt _ _ _

theorem groupsOfPushes_lt {s : State} {vs : List Byte} : ∀ g ∈ groupsOfPushes s vs, g.toNat < 2 ^ toBits s.mode := by
  induction vs generalizing s with
  | nil => exact nofun
  | cons v vs ih => exact List.forall_mem_append.mpr ⟨pushGroups_lt, ih⟩

theorem finalGroup_lt (s : State) : (finalGroup s).toNat < 2 ^ toBits s.mode := by
  have hmask : (s.acc.toNat <<< (toBits s.mode - s.bits.toNat)) &&& groupMask s.mode < 2 ^ toBits s.mode := by
    rw [groupMask, Nat.and_two_pow_sub_one_eq_mod]
    exact Nat.mod_lt _ (Nat.two_pow_pos _)
  rw [finalGroup, BitVec.toNat_ofNat]
  exact lt_of_le_of_lt (Nat.mod_le _ _) hmask

theorem padGroups_lt {s : State} : ∀ g ∈ padGroups s, g.toNat < 2 ^ toBits s.mode := by
  unfold padGroups
  split
  · exact List.forall_mem_singleton.mpr (finalGroup_lt s)
  · exact nofun

/-- A command that answers groups is a push or a flush, and answers those of the push, the final group or none. -/
theorem exec_groups_cases {i : Instr} {s t : State} {gs : List Byte} (h : exec i s = .next t)
    (hgs : t.responses = s.responses ++ [.ok (.groups gs)]) :
    (∃ v, i = .rgPush v ∧ gs = pushGroups s v) ∨ (i = .rgFlush .pad ∧ gs = padGroups s) ∨
      (i = .rgFlush .strict ∧ gs = []) := by
  have answer {u : State} {r : Response} (hex : exec i s = .next u) (hr : u.responses = s.responses ++ [r]) :
      r = .ok (.groups gs) := by
    obtain rfl := next_inj (hex.symm.trans h)
    exact (responses_eq_append_iff hr).mp hgs
  cases i with
  | ckSym v =>
    by_cases hv : v.toNat ≤ 31
    · cases answer (exec_ckSym_of_le hv s) rfl
    · cases answer (exec_ckSym_of_exceeds ((exceedsSymbol_iff v).mpr (Nat.lt_of_not_le hv)) s) rfl
  | rgPush v =>
    by_cases hv : v.toNat < 2 ^ fromBits s.mode
    · cases answer (exec_rgPush_of_lt hv) (append_responses_eq s v)
      exact .inl ⟨v, rfl, rfl⟩
    · cases answer (exec_rgPush_of_exceeds (Nat.le_of_not_lt hv)) rfl
  | rgFlush p =>
    cases p with
    | pad =>
      cases answer (exec_rgFlush_pad s) rfl
      exact .inr (.inl ⟨rfl, rfl⟩)
    | strict =>
      rcases exec_rgFlush_strict_cases s with ⟨code, val, hex⟩ | hex
      · cases answer hex rfl
      · cases answer hex rfl
        exact .inr (.inr ⟨rfl, rfl⟩)
  | _ => cases answer rfl rfl

/-- Settles O27: the groups a command can answer are bounded above, and below 32 `CK.SYM` absorbs its operand. -/
theorem emittedGroupsAreInRange : Obligations.EmittedGroupsAreInRange := by
  intro i s t gs h hgs g hg
  have hlt : g.toNat < 2 ^ toBits s.mode := by
    rcases exec_groups_cases h hgs with ⟨v, -, rfl⟩ | ⟨-, rfl⟩ | ⟨-, rfl⟩
    · exact pushGroups_lt g hg
    · exact padGroups_lt g hg
    · cases hg
  refine ⟨hlt, fun hm u => ⟨u.absorb (symbolOf g), exec_ckSym_of_le ?_ u, State.absorb_responses u _, ?_⟩⟩
  · rw [hm] at hlt
    exact Nat.le_of_lt_succ hlt
  · rw [State.absorb_chk, symbolOf_eq]

/-! ### How many groups -/

@[simp] theorem bitsMsbFirst_length (n x : Nat) : (bitsMsbFirst n x).length = n := by
  induction n with
  | zero => rfl
  | succ n ih => rw [bitsMsbFirst, List.length_cons, ih]

@[simp] theorem streamBits_length (n : Nat) (vs : List Nat) : (streamBits n vs).length = vs.length * n := by
  simp [streamBits, List.length_flatMap]

theorem pushGroups_length (s : State) (v : Byte) : (pushGroups s v).length = bitsHeld s / toBits s.mode := by
  rw [pushGroups, emitGroups_fst _ _ _ _ le_rfl, List.length_map, List.length_range]

/-- R64: in the states of R14 at most 12 bits are held, which is at most two groups. -/
theorem bitsHeld_div_le {s : State} (hs : s.Inv) : bitsHeld s / toBits s.mode ≤ 2 := by
  have h5 : 5 ≤ toBits s.mode := by cases s.mode <;> decide
  calc bitsHeld s / toBits s.mode ≤ 12 / 5 := Nat.div_le_div (bitsHeld_le hs) h5 (by decide)
    _ = 2 := rfl

/-- The bitstream's length (R26): the bits pushed are in the groups or left over. -/
theorem pushResponses_count {s : State} {vs : List Byte} (hs : s.Inv) (hvs : ∀ v ∈ vs, v.toNat < 2 ^ fromBits s.mode) :
    s.bits.toNat + vs.length * fromBits s.mode =
      ((pushResponses s vs).map Response.count).sum * toBits s.mode + (s.appendAll vs).bits.toNat := by
  have hlen := congrArg List.length (appendAll_bitstream hs hvs)
  simp only [List.length_append, bitsMsbFirst_length, streamBits_length, List.length_map, List.length_flatMap] at hlen
  exact hlen

@[simp] theorem State.startSession_mode (s : State) (d : Direction) : (s.startSession d).mode = d := rfl

theorem startSession_inv (s : State) (d : Direction) : (s.startSession d).Inv := inv_of_bits_zero rfl

theorem session_responses (s : State) (d : Direction) (vs : List Byte) :
    ((s.startSession d).appendAll vs).responses =
      s.responses ++ .ok .nothing :: pushResponses (s.startSession d) vs := by
  rw [State.appendAll_responses, State.startSession, State.ok_responses, List.append_assoc]
  rfl

/-- R64 for a session: the groups and the leftover bits are quotient and remainder of the bits pushed. -/
theorem session_div_mod {d : Direction} {vs : List Byte} (hvs : ∀ v ∈ vs, v.toNat < 2 ^ fromBits d) (s : State) :
    vs.length * fromBits d / toBits d = ((pushResponses (s.startSession d) vs).map Response.count).sum ∧
      vs.length * fromBits d % toBits d = ((s.startSession d).appendAll vs).bits.toNat := by
  have hcount : 0 + vs.length * fromBits d = _ := pushResponses_count (startSession_inv s d) hvs
  have hleft : ((s.startSession d).appendAll vs).bits.toNat < toBits d := by
    simpa [State.Inv] using appendAll_inv (startSession_inv s d) vs
  rw [Nat.zero_add] at hcount
  rw [Nat.div_mod_unique (toBits_pos d), hcount, Nat.add_comm, Nat.mul_comm]
  exact ⟨rfl, hleft⟩

/-- Settles O25: for one push R63's loop in closed form, for a session the length of its bitstream. -/
theorem groupCountsOfPushAndSession : Obligations.GroupCountsOfPushAndSession := by
  constructor
  · intro v s hs hv
    refine ⟨s.append v, pushGroups s v, exec_rgPush_of_lt hv, append_responses_eq s v, pushGroups_length s v, ?_,
      State.append_bits_toNat s v⟩
    rw [pushGroups_length]
    exact bitsHeld_div_le hs
  · intro d vs s hvs
    obtain ⟨hdiv, hmod⟩ := session_div_mod hvs s
    refine ⟨_, .ok .nothing :: pushResponses (s.startSession d) vs, run_session hvs s, session_responses s d vs,
      List.forall_mem_cons.mpr ⟨rfl, pushResponses_err⟩, State.appendAll_mode _ _, hmod.symm, ?_⟩
    rw [hdiv, List.map_cons, List.sum_cons]
    exact Nat.zero_add _

end Sys2Proof.Machine
end

section
/-! PROOFS. The three regrouper commands (41_bit_regrouper.md R62, R63, R65), one statement each. -/

namespace Sys2Proof.Machine

/-- R38: `RG.INIT` and `RG.FLUSH` have a 1-bit operand, so `IMM[7:1]` must be zero. -/
theorem illegal_of_bitOperand {w : Word} (hcmd : w.toNat / 256 = 0x20 ∨ w.toNat / 256 = 0x22)
    (himm : w.toNat % 256 / 2 ≠ 0) : ∃ why, decode w = .illegal why := by
  obtain ⟨hop, hsub, himmOf⟩ := fields_toNat w
  have hsub02 : (fieldsOf w).sub.toNat ∈ [0, 2] := by
    rw [hsub]
    rcases hcmd with hcmd | hcmd <;> rw [hcmd] <;> decide
  have hheld : (fieldsOf w).mustBeZeroHeld = false :=
    (Fields.mustBeZeroHeld_eq_false_iff _).mpr (.inr ⟨by omega, hsub02, by rwa [himmOf]⟩)
  rw [exists_illegal_iff_not_wellFormed, Fields.wellFormed, hheld, Bool.and_false]

/-! ### RG.INIT -/

/-- A command leaves `MODE` unless it has a `w` in R22's column. -/
theorem exec_mode_of_not_writesMode {i : Instr} {s t : State} (h : exec i s = .next t) (hw : i.writesMode = false) :
    t.mode = s.mode := by
  obtain ⟨u, r, hu, -, -, -, -, hmode⟩ := commandsWriteOnlyTheirColumns i s
  obtain rfl := next_inj (hu.symm.trans h)
  exact hmode hw

/-- Settles O23: `RG.INIT` writes the same registers whatever they hold, and R22 gives no other command a `MODE`. -/
theorem rgInitStartsSession : Obligations.RgInitStartsSession := by
  refine ⟨by decide, by decide, exec_rgInit, fun d s t h => ?_, fun w hcmd => illegal_of_bitOperand (.inl hcmd),
    fun i s t h hne => ?_⟩
  · obtain rfl := next_inj ((exec_rgInit d s).symm.trans h)
    exact exec_rgInit d _
  · cases i with
    | rgInit d =>
      obtain rfl := next_inj ((exec_rgInit d s).symm.trans h)
      rfl
    | _ => exact absurd (exec_mode_of_not_writesMode h rfl) hne

/-! ### RG.PUSH -/

/-- R63's frame, its loop in closed form. -/
theorem append_eq (s : State) (v : Byte) : s.append v = { s with
    acc := pushBits s.acc s.mode v
    bits := BitVec.ofNat 4 (bitsHeld s % toBits s.mode)
    responses := s.responses ++ [.ok (.groups ((List.range (bitsHeld s / toBits s.mode)).map fun k =>
      groupAt s.mode (pushBits s.acc s.mode v) (bitsHeld s - (k + 1) * toBits s.mode)))] } := by
  rw [← State.append_bits, ← State.append_responses s v]
  rfl

/-- Settles O24: the two sides of the range check; a value in range lies below the shifted `ACC`. -/
theorem rgPushAppendsAndEmits : Obligations.RgPushAppendsAndEmits := by
  intro v s
  refine ⟨rfl, fun hv => ?_, fun hv => ⟨?_, ?_, ?_, fun hs => ⟨bitsHeld_le hs, bitsHeld_div_le hs⟩⟩⟩
  · obtain ⟨hmode, h31⟩ := (exceedsRange_iff s v).mp (decide_eq_true hv)
    rw [exec_rgPush_of_exceeds hv, setWidth_eq_ofNat]
    exact ⟨rfl, hmode, h31, rfl⟩
  · rw [exec_rgPush_of_lt hv, append_eq]
    rfl
  · exact (Nat.shiftLeft_add_eq_or_of_lt hv _).symm
  · rw [← Nat.shiftLeft_add_eq_or_of_lt hv, shiftLeft_xor_eq_add _ hv, Nat.shiftLeft_eq]

/-! ### RG.FLUSH -/

/-- The would-be final group is zero exactly if every leftover bit is (R65, corner case 6). -/
theorem finalGroup_eq_zero_iff {s : State} (hs : s.Inv) : finalGroup s = 0#8 ↔ leftover s = 0 := by
  rw [← BitVec.toNat_inj, finalGroup_toNat s hs]
  exact mul_eq_zero_iff_right (Nat.two_pow_pos _).ne'

theorem tooManyLeftover_of_lt {s : State} (h : s.bits.toNat < fromBits s.mode) : tooManyLeftover s = false :=
  decide_eq_false (Nat.not_le.mpr h)

/-- R65: few leftover bits, all of them zero, are dropped. -/
theorem exec_rgFlush_of_zero_finalGroup {s : State} (hfew : s.bits.toNat < fromBits s.mode)
    (hg : finalGroup s = 0#8) : exec (.rgFlush .strict) s = .next (s.endSession []) :=
  exec_rgFlush_of_zero (tooManyLeftover_of_lt hfew) (by rw [nonzeroLeftover, hg]; rfl)

/-- Settles O26: the padded flush, the three branches of the strict one, and the final group as a number. -/
theorem rgFlushAppliesPolicy : Obligations.RgFlushAppliesPolicy := by
  refine ⟨by decide, by decide, rfl, rfl, fun w hcmd => illegal_of_bitOperand (.inr hcmd), fun s hs => ?_⟩
  refine ⟨exec_rgFlush_pad s, fun hmany => ?_, fun hfew hg => ?_, fun hfew hg => ?_, fun hmode => ?_,
    finalGroup_toNat s hs, (finalGroup_eq_zero_iff hs).not⟩
  · rw [exec_rgFlush_of_tooMany ((tooManyLeftover_iff s).mpr hmany), setWidth_eq_ofNat]
    rfl
  · rw [exec_rgFlush_of_nonzero (tooManyLeftover_of_lt hfew) ((nonzeroLeftover_iff s).mpr hg), setWidth_eq_ofNat]
    rfl
  · exact exec_rgFlush_of_zero_finalGroup hfew hg
  · have h5 : s.bits.toNat < toBits .eightToFive := hmode ▸ hs
    rw [hmode]
    exact h5.trans (by decide)

end Sys2Proof.Machine
end

section
/-! PROOFS. The round trip of 41_bit_regrouper.md R69. A padded session answers the bitstream of its input with zeros
behind it, fewer than a group. A bitstream cuts into values of one width in one way only, so the session back answers
the input and has those zeros left over, which a strict flush drops. -/

namespace Sys2Proof.Machine

/-! ### A bitstream determines its values -/

theorem mod_eq_of_bitsMsbFirst_eq {n x y : Nat} (h : bitsMsbFirst n x = bitsMsbFirst n y) :
    x % 2 ^ n = y % 2 ^ n := by
  induction n with
  | zero => rw [Nat.pow_zero, Nat.mod_one, Nat.mod_one]
  | succ n ih =>
    obtain ⟨hhead, htail⟩ := List.cons.inj h
    rw [Nat.mod_pow_succ, Nat.mod_pow_succ, ← Nat.toNat_testBit, ← Nat.toNat_testBit, hhead, ih htail]

/-- Values of one width, and bits behind them too few for another, are read off their bitstream. -/
theorem streamBits_append_inj {n : Nat} {vs ws : List Nat} {xs ys : List Bool} (hvs : ∀ v ∈ vs, v < 2 ^ n)
    (hws : ∀ w ∈ ws, w < 2 ^ n) (hxs : xs.length < n) (hys : ys.length < n)
    (h : streamBits n vs ++ xs = streamBits n ws ++ ys) : vs = ws ∧ xs = ys := by
  induction vs generalizing ws with
  | nil =>
    cases ws with
    | nil => exact ⟨rfl, h⟩
    | cons w ws =>
      have hlen := congrArg List.length h
      simp only [streamBits_nil, streamBits_cons, List.length_append, List.length_nil, bitsMsbFirst_length] at hlen
      omega
  | cons v vs ih =>
    cases ws with
    | nil =>
      have hlen := congrArg List.length h
      simp only [streamBits_nil, streamBits_cons, List.length_append, List.length_nil, bitsMsbFirst_length] at hlen
      omega
    | cons w ws =>
      obtain ⟨hv, hvs⟩ := List.forall_mem_cons.mp hvs
      obtain ⟨hw, hws⟩ := List.forall_mem_cons.mp hws
      rw [streamBits_cons, streamBits_cons, List.append_assoc, List.append_assoc] at h
      obtain ⟨hhead, htail⟩ := List.append_inj h (by rw [bitsMsbFirst_length, bitsMsbFirst_length])
      have hvw := mod_eq_of_bitsMsbFirst_eq hhead
      rw [Nat.mod_eq_of_lt hv, Nat.mod_eq_of_lt hw] at hvw
      obtain ⟨rfl, rfl⟩ := ih hvs hws htail
      exact ⟨by rw [hvw], rfl⟩

/-! ### The bitstream of a session's groups -/

/-- R26 for a session, by its groups. -/
theorem groupsOfPushes_bitstream {d : Direction} {vs : List Byte} (hvs : ∀ v ∈ vs, v.toNat < 2 ^ fromBits d)
    (s : State) :
    streamBits (fromBits d) (vs.map BitVec.toNat) =
      streamBits (toBits d) ((groupsOfPushes (s.startSession d) vs).map BitVec.toNat) ++
        bitsMsbFirst ((s.startSession d).appendAll vs).bits.toNat (leftover ((s.startSession d).appendAll vs)) := by
  rw [← pushResponses_outs]
  exact appendAll_bitstream (startSession_inv s d) hvs

/-- The groups of a padded flush are the leftover bits and zeros, fewer than a group (R65). -/
theorem padGroups_bitstream {s : State} (hs : s.Inv) : ∃ p < toBits s.mode,
    streamBits (toBits s.mode) ((padGroups s).map BitVec.toNat) =
      bitsMsbFirst s.bits.toNat (leftover s) ++ List.replicate p false := by
  unfold padGroups
  split
  · refine ⟨toBits s.mode - s.bits.toNat, by omega, ?_⟩
    rw [List.map_singleton, streamBits_cons, streamBits_nil, List.append_nil, finalGroup_bits hs]
  · rename_i hz
    rw [Nat.eq_zero_of_not_pos hz]
    exact ⟨0, toBits_pos _, rfl⟩

/-- A padded session's groups are its input and zeros, fewer than a group (R69: it "only ever adds zero bits"). -/
theorem padded_bitstream {d : Direction} {vs : List Byte} (hvs : ∀ v ∈ vs, v.toNat < 2 ^ fromBits d) (s : State) :
    ∃ p < toBits d, streamBits (toBits d) ((groupsOfPushes (s.startSession d) vs ++
        padGroups ((s.startSession d).appendAll vs)).map BitVec.toNat) =
      streamBits (fromBits d) (vs.map BitVec.toNat) ++ List.replicate p false := by
  have hpad := padGroups_bitstream (appendAll_inv (startSession_inv s d) vs)
  rw [State.appendAll_mode, State.startSession_mode] at hpad
  obtain ⟨p, hp, hpad⟩ := hpad
  refine ⟨p, hp, ?_⟩
  rw [List.map_append, streamBits_append, hpad, groupsOfPushes_bitstream hvs, List.append_assoc]

/-! ### The session back -/

/-- A session over the bitstream of groups with a few zeros behind answers the groups and can be closed strictly. -/
theorem groupsOfPushes_of_bitstream {d : Direction} {vs gs : List Byte} {p : Nat}
    (hvs : ∀ v ∈ vs, v.toNat < 2 ^ fromBits d) (hgs : ∀ g ∈ gs, g.toNat < 2 ^ toBits d)
    (hfrom : p < fromBits d) (hto : p < toBits d)
    (h : streamBits (fromBits d) (vs.map BitVec.toNat) =
      streamBits (toBits d) (gs.map BitVec.toNat) ++ List.replicate p false) (s : State) :
    groupsOfPushes (s.startSession d) vs = gs ∧
      exec (.rgFlush .strict) ((s.startSession d).appendAll vs) =
        .next (((s.startSession d).appendAll vs).endSession []) := by
  have hinv := appendAll_inv (startSession_inv s d) vs
  have hmode : ((s.startSession d).appendAll vs).mode = d := State.appendAll_mode _ _
  rw [groupsOfPushes_bitstream hvs s] at h
  generalize (s.startSession d).appendAll vs = t at *
  have hbits : t.bits.toNat < toBits d := hmode ▸ hinv
  obtain ⟨hgroups, hzeros⟩ := streamBits_append_inj (n := toBits d) (List.forall_mem_map.mpr groupsOfPushes_lt)
    (List.forall_mem_map.mpr hgs) (by simpa using hbits) (by simpa using hto) h
  obtain rfl : t.bits.toNat = p := by simpa using congrArg List.length hzeros
  have hleft : leftover t = 0 := by
    rw [← bitsMsbFirst_of_zero] at hzeros
    simpa [leftover] using mod_eq_of_bitsMsbFirst_eq hzeros
  exact ⟨List.map_injective_iff.mpr (fun _ _ => BitVec.eq_of_toNat_eq) hgroups,
    exec_rgFlush_of_zero_finalGroup (hmode ▸ hfrom) ((finalGroup_eq_zero_iff hinv).mpr hleft)⟩

/-! ### A conversion as a host runs it -/

/-- R70: without an error the result is the outputs together. -/
theorem hostResult_of_no_error {rs : List Response} (h : ∀ r ∈ rs, r.err = 0#4) :
    hostResult rs = .ok (rs.flatMap Response.outs) := by
  induction rs with
  | nil => rfl
  | cons r rs ih =>
    obtain ⟨hr, hrs⟩ := List.forall_mem_cons.mp h
    cases r with
    | ok out => rw [hostResult, ih hrs]; rfl
    | error code val => exact absurd hr code.code_ne_zero

/-- A `.CONVERT` is a session and the flush that closes it (R75). -/
theorem run_convert {d : Direction} {p : Padding} {vs : List Byte} {s t : State}
    (hvs : ∀ v ∈ vs, v.toNat < 2 ^ fromBits d)
    (h : exec (.rgFlush p) ((s.startSession d).appendAll vs) = .next t) :
    run (vs.length + 2) (s.present (Pseudo.convert d p vs).expansion) = .next t := by
  have hsession : run (Instr.rgInit d :: vs.map .rgPush).length (s.present (.rgInit d :: vs.map .rgPush)) =
      .next ((s.startSession d).appendAll vs) := by
    rw [List.length_cons, List.length_map]
    exact run_session hvs s
  have hrun := run_present_append (js := [.rgFlush p]) hsession (State.appendAll_inputs _ _) 1
  rw [run_present h, List.length_cons, List.length_map] at hrun
  exact hrun

/-- A `.CONVERT` whose flush succeeds gives the groups of its pushes and of its flush (R75). -/
theorem convert_succeeds {d : Direction} {p : Padding} {vs gs : List Byte} {s : State}
    (hvs : ∀ v ∈ vs, v.toNat < 2 ^ fromBits d)
    (h : exec (.rgFlush p) ((s.startSession d).appendAll vs) =
      .next (((s.startSession d).appendAll vs).endSession gs)) :
    ∃ t rs, run (vs.length + 2) (s.present (Pseudo.convert d p vs).expansion) = .next t ∧
      t.responses = s.responses ++ rs ∧
      hostResult rs = .ok ((groupsOfPushes (s.startSession d) vs ++ gs).map BitVec.toNat) := by
  refine ⟨_, .ok .nothing :: pushResponses (s.startSession d) vs ++ [.ok (.groups gs)], run_convert hvs h, ?_, ?_⟩
  · rw [State.endSession_responses, session_responses, List.append_assoc]
  · rw [hostResult_of_no_error, List.flatMap_append, List.flatMap_cons, pushResponses_outs, List.flatMap_singleton,
      List.map_append]
    · rfl
    · exact List.forall_mem_append.mpr
        ⟨List.forall_mem_cons.mpr ⟨rfl, pushResponses_err⟩, List.forall_mem_singleton.mpr rfl⟩

/-- Settles O48: the Symbols are the bytes' bitstream with fewer than 5 zeros behind, which the session back reads. -/
theorem conversionRoundTrips : Obligations.ConversionRoundTrips := by
  intro bytes s
  have hbytes : ∀ v ∈ bytes, v.toNat < 2 ^ 8 := fun v _ => v.isLt
  obtain ⟨t, rs, hrun, hresp, hres⟩ := convert_succeeds (d := .eightToFive) (s := s) hbytes (exec_rgFlush_pad _)
  obtain ⟨p, hp, hstream⟩ := padded_bitstream (d := .eightToFive) hbytes s
  have hsyms : ∀ g ∈ groupsOfPushes (s.startSession .eightToFive) bytes ++
      padGroups ((s.startSession .eightToFive).appendAll bytes), g.toNat < 2 ^ 5 := by
    refine List.forall_mem_append.mpr ⟨groupsOfPushes_lt, ?_⟩
    have hpad := @padGroups_lt ((s.startSession .eightToFive).appendAll bytes)
    rwa [State.appendAll_mode] at hpad
  generalize groupsOfPushes (s.startSession .eightToFive) bytes ++
    padGroups ((s.startSession .eightToFive).appendAll bytes) = syms at *
  have hlen : syms.length * 5 = bytes.length * 8 + p := by simpa [fromBits, toBits] using congrArg List.length hstream
  obtain ⟨hback, hflush⟩ := groupsOfPushes_of_bitstream (d := .fiveToEight) hsyms hbytes hp
    (hp.trans (by decide)) hstream t
  obtain ⟨u, rs', hrun', hresp', hres'⟩ := convert_succeeds hsyms hflush
  rw [hback, List.append_nil] at hres'
  refine ⟨t, rs, syms, hrun, hresp, hres, ?_, u, rs', hrun', hresp', hres'⟩
  have hp5 : p < 5 := hp
  omega

end Sys2Proof.Machine
end

section
/-! PROOFS. Interleaving (42_host_sequences.md R76, R77). Two states that agree on a unit's registers stay so while the
one runs a list of commands and the other that unit's commands of the list. -/

namespace Sys2Proof.Machine

/-! ### Agreement on a unit's registers -/

/-- The two states have the same values in a unit's registers (R22). -/
def AgreeOn : Side → State → State → Prop
  | .checksum, s, t => s.chk = t.chk
  | .regrouper, s, t => s.acc = t.acc ∧ s.bits = t.bits ∧ s.mode = t.mode

theorem AgreeOn.refl (side : Side) (s : State) : AgreeOn side s s := by
  cases side with
  | checksum => rfl
  | regrouper => exact ⟨rfl, rfl, rfl⟩

/-- A unit's own command answers the same from states that agree on the unit, and they go on agreeing. -/
theorem AgreeOn.of_exec {i : Instr} {s s' t : State} {r : Response} (h : AgreeOn i.side s' s) (ht : exec i s = .next t)
    (hr : t.responses = s.responses ++ [r]) :
    ∃ t', exec i s' = .next t' ∧ t'.responses = s'.responses ++ [r] ∧ AgreeOn i.side t' t := by
  obtain ⟨hck, hrg⟩ := unitsShareNoState i s' s
  cases hi : i.side with
  | checksum =>
    rw [hi] at h
    obtain ⟨t', u, r', hex', hex, hr', hru, hchk⟩ := hck hi h
    obtain rfl := next_inj (hex.symm.trans ht)
    obtain rfl := (responses_eq_append_iff hr).mp hru
    exact ⟨t', hex', hr', hchk⟩
  | regrouper =>
    rw [hi] at h
    obtain ⟨hacc, hbits, hmode⟩ := h
    obtain ⟨t', u, r', hex', hex, hr', hru, hregs⟩ := hrg hi hacc hbits hmode
    obtain rfl := next_inj (hex.symm.trans ht)
    obtain rfl := (responses_eq_append_iff hr).mp hru
    exact ⟨t', hex', hr', hregs⟩

/-- A command of the other unit leaves the agreement. -/
theorem AgreeOn.of_exec_other {side : Side} {i : Instr} {s s' t : State} (h : AgreeOn side s' s) (hi : i.side ≠ side)
    (ht : exec i s = .next t) : AgreeOn side s' t := by
  cases hside : i.side with
  | checksum =>
    obtain ⟨chk, r, -, hex⟩ := exec_checksum hside s
    obtain rfl := next_inj ((hex s rfl).symm.trans ht)
    cases side with
    | checksum => exact absurd hside hi
    | regrouper => exact h
  | regrouper =>
    obtain ⟨acc, bits, mode, r, -, hex⟩ := exec_regrouper hside s
    obtain rfl := next_inj ((hex s rfl rfl rfl).symm.trans ht)
    cases side with
    | checksum => exact h
    | regrouper => exact absurd hside hi

/-! ### A list of commands and one unit's part of it -/

/-- From `s'` the commands of one unit run to a state with the responses that `rs` has for them, and with the unit's
registers as in `t`. -/
def UnitRun (side : Side) (is : List Instr) (rs : List Response) (s' t : State) : Prop :=
  ∃ u, run (is.filter fun i => i.side = side).length (s'.present (is.filter fun i => i.side = side)) = .next u ∧
    u.responses = s'.responses ++ ((is.zip rs).filter fun p => p.1.side = side).map Prod.snd ∧ AgreeOn side u t

/-- A command of the unit is the first of the unit's part. -/
theorem UnitRun.cons {side : Side} {i : Instr} {is : List Instr} {r : Response} {rs : List Response} {s' v t : State}
    (hi : i.side = side) (hv : exec i s' = .next v) (hr : v.responses = s'.responses ++ [r])
    (h : UnitRun side is rs v t) : UnitRun side (i :: is) (r :: rs) s' t := by
  obtain ⟨u, hrun, hresp, hregs⟩ := h
  refine ⟨u, ?_, ?_, hregs⟩
  · rw [List.filter_cons, if_pos (decide_eq_true hi), List.length_cons, run_present hv, hrun]
  · rw [List.zip_cons_cons, List.filter_cons, if_pos (decide_eq_true hi), hresp, hr, List.map_cons, List.append_assoc,
      List.singleton_append]

/-- A command of the other unit is not in the unit's part. -/
theorem UnitRun.cons_other {side : Side} {i : Instr} {is : List Instr} {r : Response} {rs : List Response}
    {s' t : State} (hi : i.side ≠ side) (h : UnitRun side is rs s' t) : UnitRun side (i :: is) (r :: rs) s' t := by
  have hi' : ¬ decide (i.side = side) = true := by simpa using hi
  obtain ⟨u, hrun, hresp, hregs⟩ := h
  refine ⟨u, ?_, ?_, hregs⟩
  · rw [List.filter_cons, if_neg hi', hrun]
  · rw [List.zip_cons_cons, List.filter_cons, if_neg hi', hresp]

/-- Each unit's part of a list runs as in the list, from every state that agrees on the unit at the start. -/
theorem run_unitRun (is : List Instr) (s : State) : ∃ t rs, run is.length (s.present is) = .next t ∧
    t.responses = s.responses ++ rs ∧ rs.length = is.length ∧
    ∀ side s', AgreeOn side s' s → UnitRun side is rs s' t := by
  induction is generalizing s with
  | nil =>
    exact ⟨s, [], rfl, (List.append_nil _).symm, rfl, fun side s' h => ⟨s', rfl, (List.append_nil _).symm, h⟩⟩
  | cons i is ih =>
    obtain ⟨s₁, r, hex, -, hr⟩ := exec_answers i s
    obtain ⟨t, rs, hrun, hrs, hlen, hunit⟩ := ih s₁
    refine ⟨t, r :: rs, ?_, ?_, by rw [List.length_cons, List.length_cons, hlen], fun side s' h => ?_⟩
    · rw [List.length_cons, run_present hex, hrun]
    · rw [hrs, hr, List.append_assoc, List.singleton_append]
    · by_cases hi : i.side = side
      · subst hi
        obtain ⟨v, hv, hvr, hregs⟩ := h.of_exec hex hr
        exact (hunit _ v hregs).cons rfl hv hvr
      · exact (hunit side s' (h.of_exec_other hi hex)).cons_other hi

/-- Settles O35: `run_unitRun` for the state itself, which agrees with itself on both units. -/
theorem interleavingIsInvisibleToEachUnit : Obligations.InterleavingIsInvisibleToEachUnit := by
  intro is s
  obtain ⟨t, rs, hrun, hrs, hlen, hunit⟩ := run_unitRun is s
  refine ⟨t, rs, hrun, hrs, hlen, fun side => ?_⟩
  obtain ⟨u, hu, hur, hregs⟩ := hunit side s (AgreeOn.refl side s)
  refine ⟨u, hu, hur, ?_, ?_⟩
  · rintro rfl
    exact hregs
  · rintro rfl
    exact hregs

end Sys2Proof.Machine
end

section
/-! PROOFS. How a host reads the result of a command list (42_host_sequences.md R70): successes together, or the first
error whatever is answered behind it. -/

namespace Sys2Proof.Machine

/-- Successes come before what the rest of the responses gives. -/
theorem hostResult_append {qs : List Response} (h : ∀ q ∈ qs, q.err = 0#4) (rs : List Response) :
    hostResult (qs ++ rs) = (hostResult rs).map (qs.flatMap Response.outs ++ ·) := by
  induction qs with
  | nil =>
    rw [List.nil_append]
    cases hostResult rs <;> rfl
  | cons q qs ih =>
    obtain ⟨hq, hqs⟩ := List.forall_mem_cons.mp h
    cases q with
    | error code val => exact absurd hq code.code_ne_zero
    | ok out =>
      rw [List.cons_append, hostResult, ih hqs, List.flatMap_cons]
      cases hostResult rs with
      | error e => rfl
      | ok vs => exact congrArg Except.ok (List.append_assoc _ _ _).symm

theorem hostResult_append_error {qs : List Response} (h : ∀ q ∈ qs, q.err = 0#4) (code : ErrorCode)
    (val : BitVec 16) (rs : List Response) : hostResult (qs ++ .error code val :: rs) = .error (code, val) := by
  rw [hostResult_append h]
  rfl

theorem hostResult_replicate_nothing (n : Nat) (rs : List Response) :
    hostResult (List.replicate n (.ok .nothing) ++ rs) = hostResult rs := by
  have hok : ∀ q ∈ List.replicate n (Response.ok .nothing), q.err = 0#4 := fun q hq => by
    rw [List.eq_of_mem_replicate hq]; rfl
  have houts : (List.replicate n (Response.ok .nothing)).flatMap Response.outs = [] :=
    List.flatMap_eq_nil_iff.mpr fun q hq => by rw [List.eq_of_mem_replicate hq]; rfl
  rw [hostResult_append hok, houts]
  cases hostResult rs <;> rfl

/-- Every list of commands runs through, with a response for each (R31). -/
theorem run_answers (is : List Instr) (s : State) : ∃ t rs, run is.length (s.present is) = .next t ∧
    t.responses = s.responses ++ rs ∧ t.inputs = s.inputs := by
  obtain ⟨t, rs, hrun, hrs, -, hin, -⟩ := oneResponsePerCommandInOrder (is.map encode) s
  rw [List.length_map] at hrun
  exact ⟨t, rs, hrun, hrs, hin⟩

/-- A command that fails behind a list, and whatever is presented behind it. -/
theorem run_failing {is : List Instr} {i : Instr} {s t : State} {code : ErrorCode} {val : BitVec 16}
    (h : run is.length (s.present is) = .next t) (hin : t.inputs = s.inputs)
    (hfail : exec i t = .next (t.fail code val)) (js : List Instr) :
    ∃ u rs, run (is ++ i :: js).length (s.present (is ++ i :: js)) = .next u ∧
      u.responses = t.responses ++ .error code val :: rs := by
  obtain ⟨u, rs, hrun, hrs, -⟩ := run_answers js (t.fail code val)
  refine ⟨u, rs, ?_, ?_⟩
  · rw [List.length_append, run_present_append h hin, List.length_cons, run_present hfail, hrun]
  · rw [hrs, State.fail_responses, List.append_assoc, List.singleton_append]

end Sys2Proof.Machine
end

section
/-! PROOFS. The host sequences of the checksum engine (42_host_sequences.md R71 to R74). Each is `CK.INIT`, commands
that absorb Symbols, and a command that reads `CHK`; the first and the last are the same for all of them, so what a
sequence answers is decided by the Symbols that the commands between absorb. -/

namespace Sys2Proof.Machine

/-! ### Commands that absorb -/

/-- The commands absorb the Symbols, one each, from every state. -/
abbrev Absorbs : List Instr → List Symbol → Prop :=
  List.Forall₂ fun i v => ∀ s : State, exec i s = .next (s.absorb v)

theorem absorbs_map {α : Type} {f : α → Instr} {g : α → Symbol}
    (h : ∀ (a : α) (s : State), exec (f a) s = .next (s.absorb (g a))) (as : List α) :
    Absorbs (as.map f) (as.map g) :=
  List.forall₂_map_left_iff.mpr (List.forall₂_map_right_iff.mpr (List.forall₂_same.mpr fun a _ => h a))

/-- `CK.SYM` of each Symbol, as a host writes it into `IMM` (R72). -/
def symCommands (vs : List Symbol) : List Instr := (vs.map fun v => v.setWidth 8).map .ckSym

@[simp] theorem symCommands_length (vs : List Symbol) : (symCommands vs).length = vs.length := by
  rw [symCommands, List.length_map, List.length_map]

theorem absorbs_symCommands (vs : List Symbol) : Absorbs (symCommands vs) vs := by
  have h := absorbs_map exec_ckSym_setWidth vs
  rw [List.map_id'] at h
  rwa [symCommands, List.map_map]

/-- R71: the commands of `.EXPAND` absorb D0's `expand`. -/
theorem absorbs_expand (chars : List Byte) : Absorbs (expandCommands chars) (Reference.expand chars) :=
  List.rel_append (absorbs_map exec_ckHi chars) (.cons (exec_ckSym_setWidth 0#5) (absorbs_map exec_ckLo chars))

theorem expandCommands_length (chars : List Byte) : (expandCommands chars).length = 2 * chars.length + 1 := by
  rw [expandCommands, List.length_append, List.length_cons, List.length_map, List.length_map]
  omega

theorem expand_eq (chars : List Byte) : Reference.expand chars =
    chars.map (fun c => BitVec.ofNat 5 (c.toNat >>> 5)) ++ [0#5] ++
      chars.map (fun c => BitVec.ofNat 5 (c.toNat &&& 31)) := by
  have hhigh : highPart = fun c => BitVec.ofNat 5 (c.toNat >>> 5) := funext fun c => by
    rw [highPart_eq, Nat.shiftRight_eq_div_pow]
  have hlow : lowPart = fun c => BitVec.ofNat 5 (c.toNat &&& 31) := funext fun c => by
    rw [lowPart_eq, Nat.and_two_pow_sub_one_eq_mod c.toNat 5]
  rw [Reference.expand, hhigh, hlow, List.append_assoc, List.singleton_append]

/-- Settles O41: `.EXPAND` is a list of absorbing commands. -/
theorem expandAbsorbsPrefix : Obligations.ExpandAbsorbsPrefix := by
  intro chars s
  have hexp : (Pseudo.expand chars).expansion = expandCommands chars := rfl
  rw [hexp, ← expandCommands_length]
  refine ⟨expand_eq chars, ?_, rfl, run_absorbing (absorbs_expand chars) s⟩
  rw [expandCommands, List.append_assoc, List.singleton_append]

/-! ### A session that absorbs -/

/-- The state after `CK.INIT` and commands that absorb Symbols (R50, R72). -/
def State.absorbSession (s : State) (vs : List Symbol) : State :=
  { s with
    chk := absorbAll 1#30 vs
    responses := s.responses ++ List.replicate (vs.length + 1) (.ok .nothing) }

theorem run_absorbSession {is : List Instr} {vs : List Symbol} (h : Absorbs is vs) (s : State) :
    run (.ckInit :: is).length (s.present (.ckInit :: is)) = .next (s.absorbSession vs) := by
  rw [List.length_cons, run_present (exec_ckInit s), run_absorbing h, h.length_eq, State.absorbSession,
    List.replicate_succ, ← List.singleton_append, ← List.append_assoc]
  rfl

/-- A session closed by a command that answers `out`: that answer is the last response and alone the result. -/
theorem run_readSession {is : List Instr} {vs : List Symbol} {i : Instr} {out : Output} {s : State} (h : Absorbs is vs)
    (hread : exec i (s.absorbSession vs) = .next ((s.absorbSession vs).ok out)) :
    run (is.length + 2) (s.present (.ckInit :: is ++ [i])) = .next ((s.absorbSession vs).ok out) ∧
      ∃ rs, ((s.absorbSession vs).ok out).responses = s.responses ++ rs ∧ hostResult rs = .ok out.values ∧
        rs.getLast? = some (.ok out) := by
  constructor
  · exact (run_present_append (js := [i]) (run_absorbSession h s) rfl 1).trans (run_present hread [] 0)
  · refine ⟨List.replicate (vs.length + 1) (.ok .nothing) ++ [.ok out], ?_, ?_, List.getLast?_concat⟩
    · rw [State.ok_responses, State.absorbSession, List.append_assoc]
    · exact (hostResult_replicate_nothing _ _).trans (congrArg Except.ok (List.append_nil _))

/-! ### .RESIDUE -/

theorem residue_expansion_length (values : List Byte) :
    (Pseudo.residue values).expansion.length = values.length + 2 := by
  simp [Pseudo.expansion]

/-- R72: a value above 31 behind Symbols is the result, whatever follows it. -/
theorem residue_fails (vs : List Symbol) {bad : Byte} (hbad : 31 < bad.toNat) (rest : List Byte) (s : State) :
    ∃ t rs, run (vs.length + rest.length + 3)
        (s.present (Pseudo.residue ((vs.map fun v => v.setWidth 8) ++ bad :: rest)).expansion) = .next t ∧
      t.responses = s.responses ++ rs ∧ hostResult rs = .error (.symbol, BitVec.ofNat 16 bad.toNat) := by
  have hlist : (Pseudo.residue ((vs.map fun v => v.setWidth 8) ++ bad :: rest)).expansion =
      .ckInit :: symCommands vs ++ .ckSym bad :: (rest.map .ckSym ++ [.ckRd]) := by
    rw [Pseudo.expansion, List.map_append, List.cons_append, List.append_assoc]
    rfl
  have hfail := exec_ckSym_of_exceeds ((exceedsSymbol_iff bad).mpr hbad) (s.absorbSession vs)
  obtain ⟨t, rs, hrun, hrs⟩ :=
    run_failing (run_absorbSession (absorbs_symCommands vs) s) rfl hfail (rest.map .ckSym ++ [.ckRd])
  refine ⟨t, List.replicate (vs.length + 1) (.ok .nothing) ++ .error .symbol (bad.setWidth 16) :: rs, ?_, ?_, ?_⟩
  · rw [← hlist, residue_expansion_length, List.length_append, List.length_map, List.length_cons] at hrun
    exact hrun
  · rw [hrs, State.absorbSession, List.append_assoc]
  · rw [hostResult_replicate_nothing, hostResult, setWidth_eq_ofNat]

/-- Settles O42: a session closed by `CK.RD`, and one with a failing `CK.SYM` in it. -/
theorem residueSequenceComputesResidue : Obligations.ResidueSequenceComputesResidue := by
  refine ⟨fun _ => rfl, fun vs s => ?_, fun vs bad rest s hbad => residue_fails vs hbad rest s, absorbAll_append,
    fun s => ⟨_, _, exec_ckRd s, exec_ckVfy s, rfl, rfl⟩⟩
  obtain ⟨hrun, rs, hresp, hres, hlast⟩ := run_readSession (s := s) (absorbs_symCommands vs) (exec_ckRd _)
  rw [symCommands_length] at hrun
  exact ⟨_, rs, hrun, hresp, hres, hlast, rfl⟩

/-! ### .VERIFY -/

theorem absorbs_expand_symCommands (chars : List Byte) (data : List Symbol) :
    Absorbs (expandCommands chars ++ symCommands data) (Reference.expand chars ++ data) :=
  List.rel_append (absorbs_expand chars) (absorbs_symCommands data)

theorem expand_symCommands_length (chars : List Byte) (data : List Symbol) :
    (expandCommands chars ++ symCommands data).length = 2 * chars.length + data.length + 1 := by
  rw [List.length_append, expandCommands_length, symCommands_length]
  omega

/-- Settles O43: a session closed by `CK.VFY`. -/
theorem verifySequenceAnswersVerify : Obligations.VerifySequenceAnswersVerify := by
  refine ⟨fun _ _ => rfl, fun chars data s => ?_⟩
  obtain ⟨hrun, rs, hresp, hres, hlast⟩ :=
    run_readSession (s := s) (absorbs_expand_symCommands chars data) (exec_ckVfy _)
  rw [expand_symCommands_length] at hrun
  refine ⟨_, rs, hrun, hresp, hlast, hres.trans ?_⟩
  simp only [Output.values, decide_eq_true_iff]
  rfl

/-! ### .CREATE -/

/-- `m` of `.CREATE` (R74) is `m` of `CK.FIN` after the characters and the data (R55). -/
theorem createValue_eq (chars : List Byte) (data : List Symbol) :
    Reference.createValue chars data = checksumValue (absorbAll 1#30 (Reference.expand chars ++ data)) := by
  rw [checksumValue, ← absorbAll_append]
  rfl

/-- D0's `create` is the groups that `CK.FIN` cuts from `m` (R25, R74). -/
theorem create_eq (chars : List Byte) (data : List Symbol) :
    Reference.create chars data = checksumGroups (Reference.createValue chars data) := by
  refine List.map_congr_left fun p _ => BitVec.eq_of_toNat_eq ?_
  rw [BitVec.toNat_ofNat, Nat.and_two_pow_sub_one_eq_mod _ 5, Nat.mod_mod, Nat.shiftRight_eq_div_pow,
    checksumGroup_toNat]

@[simp] theorem create_length (chars : List Byte) (data : List Symbol) : (Reference.create chars data).length = 6 := rfl

/-- R74: the data with its checksum behind it has residue 1. -/
theorem absorbAll_created (chars : List Byte) (data : List Symbol) :
    absorbAll 1#30 (Reference.expand chars ++ (data ++ Reference.create chars data)) = 1#30 := by
  rw [create_eq, createValue_eq, ← List.append_assoc, absorbAll_append]
  exact absorbAll_checksumValue _

/-- R55 with the answer as a list. -/
theorem exec_ckFin_values (s : State) :
    ∃ out, exec .ckFin s = .next (s.ok out) ∧ out.values = (checksumGroups (checksumValue s.chk)).map BitVec.toNat :=
  ⟨_, rfl, rfl⟩

/-- `.VERIFY` of the data with its checksum answers 1, from every state. -/
theorem verify_created (chars : List Byte) (data : List Symbol) (s : State) : ∃ t rs,
    run (2 * chars.length + data.length + 9) (s.present
        (Pseudo.verify chars ((data ++ Reference.create chars data).map fun v => v.setWidth 8)).expansion) = .next t ∧
      t.responses = s.responses ++ rs ∧ hostResult rs = .ok [1] := by
  have hvalid := absorbAll_created chars data
  rw [absorbAll] at hvalid
  obtain ⟨t, rs, hrun, hresp, -, hres⟩ := verifySequenceAnswersVerify.2 chars (data ++ Reference.create chars data) s
  rw [List.length_append, create_length, ← Nat.add_assoc] at hrun
  rw [if_pos hvalid] at hres
  exact ⟨t, rs, hrun, hresp, hres⟩

/-- Going on with the checksum in a session that has absorbed characters and data makes `CK.VFY` answer 1. -/
theorem run_created {chars : List Byte} {data : List Symbol} {s : State}
    (h : s.chk = absorbAll 1#30 (Reference.expand chars ++ data)) : ∃ t rs,
    run 7 (s.present ((Reference.create chars data).map (fun k => Instr.ckSym (k.setWidth 8)) ++ [.ckVfy])) =
        .next t ∧
      t.responses = s.responses ++ rs ∧ hostResult rs = .ok [1] := by
  have hone : absorbAll s.chk (Reference.create chars data) = 1#30 := by
    rw [h, ← absorbAll_append, List.append_assoc]
    exact absorbAll_created chars data
  refine ⟨_, List.replicate 6 (.ok .nothing) ++ [.ok (.valid true)],
    run_ckSyms_ckVfy s (Reference.create chars data), ?_, rfl⟩
  rw [List.append_assoc, decide_eq_true hone]
  rfl

/-- Settles O44: a session closed by `CK.FIN`; its answer behind the data, in a new session or in this one, leads to the
residue 1. -/
theorem createdChecksumVerifies : Obligations.CreatedChecksumVerifies := by
  refine ⟨fun _ _ => rfl, fun chars data s => ?_⟩
  obtain ⟨out, hfin, hout⟩ := exec_ckFin_values (s.absorbSession (Reference.expand chars ++ data))
  obtain ⟨hrun, rs, hresp, hres, -⟩ := run_readSession (absorbs_expand_symCommands chars data) hfin
  rw [expand_symCommands_length] at hrun
  have hvalues : out.values = (Reference.create chars data).map BitVec.toNat := by
    rw [hout, State.absorbSession, ← createValue_eq, create_eq]
  exact ⟨_, rs, Reference.create chars data, hrun, hresp, hvalues ▸ hres,
    create_eq chars data ▸ checksumGroups_toNat _, verify_created chars data, run_created rfl⟩

end Sys2Proof.Machine
end

section
/-! PROOFS. `.CONVERT` against D0's `convert` (41_bit_regrouper.md R66, 42_host_sequences.md R75). The engine keeps of
D0's unbounded accumulator what `BITS` counts: the two agree there at the start of a session, a push keeps the
agreement and emits what D0 emits, and a flush decides and emits by these bits alone. -/

namespace Sys2Proof.Machine

/-- The state holds what counts of D0's accumulator and bit count (R66). -/
def Holds (s : State) (acc bits : Nat) : Prop := s.bits.toNat = bits ∧ leftover s = acc % 2 ^ bits

/-! ### One push -/

/-- D0's loop reads the low `b` bits of its accumulator only, so the engine's loop does the same on fewer bits. -/
theorem emit_eq_emitGroups (d : Direction) {a : BitVec 12} {acc b : Nat} (passes : Nat)
    (h : acc % 2 ^ b = a.toNat % 2 ^ b) :
    Reference.emit (toBits d) acc passes b =
      ((emitGroups d a passes b).1.map BitVec.toNat, (emitGroups d a passes b).2) := by
  induction passes generalizing b with
  | zero => rfl
  | succ n ih =>
    unfold Reference.emit emitGroups
    split
    · rename_i hle
      have hlow : acc % 2 ^ (b - toBits d) = a.toNat % 2 ^ (b - toBits d) := by
        have hdvd : 2 ^ (b - toBits d) ∣ 2 ^ b := pow_dvd_pow 2 (Nat.sub_le b _)
        rw [← Nat.mod_mod_of_dvd acc hdvd, h, Nat.mod_mod_of_dvd _ hdvd]
      have hgroup : (acc >>> (b - toBits d)) &&& (2 ^ toBits d - 1) = (groupAt d a (b - toBits d)).toNat := by
        have hb : 2 ^ b = 2 ^ (b - toBits d) * 2 ^ toBits d := by rw [← Nat.pow_add, Nat.sub_add_cancel hle]
        rw [groupAt_toNat_mod d a (Nat.sub_add_cancel hle).le, ← h, Nat.and_two_pow_sub_one_eq_mod,
          Nat.shiftRight_eq_div_pow, hb, Nat.mod_mul_right_div_self, Nat.mod_mod]
      rw [ih hlow, hgroup]
      rfl
    · rfl

section Push

variable {s : State} {acc bits : Nat} (hs : s.Inv) (h : Holds s acc bits) {v : Byte}
  (hv : v.toNat < 2 ^ fromBits s.mode)
include h hv

/-- D0's accumulator after taking a value, as far as the engine holds it. -/
theorem Holds.push_mod : ((acc <<< fromBits s.mode) ||| v.toNat) % 2 ^ bitsHeld s =
    leftover s * 2 ^ fromBits s.mode + v.toNat := by
  obtain ⟨rfl, hleft⟩ := h
  have hlow : (acc * 2 ^ fromBits s.mode + v.toNat) % 2 ^ fromBits s.mode = v.toNat := by
    rw [Nat.mul_comm, Nat.mul_add_mod, Nat.mod_eq_of_lt hv]
  have hhigh : (acc * 2 ^ fromBits s.mode + v.toNat) / 2 ^ fromBits s.mode = acc := by
    rw [Nat.mul_comm, Nat.mul_add_div (Nat.two_pow_pos _), Nat.div_eq_of_lt hv, Nat.add_zero]
  rw [← Nat.shiftLeft_add_eq_or_of_lt hv, Nat.shiftLeft_eq, bitsHeld, Nat.add_comm s.bits.toNat, Nat.pow_add,
    Nat.mod_mul, hlow, hhigh, ← hleft, Nat.add_comm, Nat.mul_comm]

include hs

theorem Holds.emit_eq :
    Reference.emit (toBits s.mode) ((acc <<< fromBits s.mode) ||| v.toNat) (bits + fromBits s.mode)
        (bits + fromBits s.mode) =
      ((pushGroups s v).map BitVec.toNat, (s.append v).bits.toNat) := by
  have hmod := h.push_mod hv
  obtain ⟨rfl, -⟩ := h
  rw [← pushBits_leftover hs hv] at hmod
  rw [State.append_bits_toNat, ← emitGroups_snd s.mode (pushBits s.acc s.mode v) _ _ le_rfl]
  exact emit_eq_emitGroups s.mode _ hmod

theorem Holds.append :
    Holds (s.append v) ((acc <<< fromBits s.mode) ||| v.toNat) (s.append v).bits.toNat := by
  have hdvd : 2 ^ (s.append v).bits.toNat ∣ 2 ^ bitsHeld s := by
    rw [State.append_bits_toNat]
    exact pow_dvd_pow 2 (Nat.mod_le _ _)
  refine ⟨rfl, ?_⟩
  rw [← Nat.mod_mod_of_dvd _ hdvd, h.push_mod hv, State.append_bits_toNat, leftover_append hs hv]

end Push

/-! ### A list of pushes -/

/-- D0's loop over values in range: its groups are the engine's, and it ends with what the engine holds. -/
theorem Holds.consume_eq {s : State} {acc bits : Nat} {vs : List Byte} (hs : s.Inv) (h : Holds s acc bits)
    (hvs : ∀ v ∈ vs, v.toNat < 2 ^ fromBits s.mode) :
    ∃ acc' bits', Holds (s.appendAll vs) acc' bits' ∧
      Reference.consume (fromBits s.mode) (toBits s.mode) (vs.map BitVec.toNat) acc bits =
        .ok ((groupsOfPushes s vs).map BitVec.toNat, acc', bits') := by
  induction vs generalizing s acc bits with
  | nil => exact ⟨acc, bits, h, rfl⟩
  | cons v vs ih =>
    obtain ⟨hv, hvs⟩ := List.forall_mem_cons.mp hvs
    obtain ⟨acc', bits', hend, hrest⟩ := ih (append_inv s v) (h.append hs hv) hvs
    refine ⟨acc', bits', hend, ?_⟩
    rw [State.append_mode] at hrest
    rw [List.map_cons, Reference.consume, if_neg (Nat.not_le.mpr hv), h.emit_eq hs hv, hrest, groupsOfPushes,
      List.map_append]

/-- D0 stops at the first value out of range, whatever it has taken before. -/
theorem consume_of_bad {fw tw : Nat} {vs : List Nat} {bad : Nat} (hvs : ∀ v ∈ vs, v < 2 ^ fw) (hbad : 2 ^ fw ≤ bad)
    (rest : List Nat) (acc bits : Nat) :
    Reference.consume fw tw (vs ++ bad :: rest) acc bits = .error (.range bad) := by
  induction vs generalizing acc bits with
  | nil => rw [List.nil_append, Reference.consume, if_pos hbad]
  | cons v vs ih =>
    obtain ⟨hv, hvs⟩ := List.forall_mem_cons.mp hvs
    rw [List.cons_append, Reference.consume, if_neg (Nat.not_le.mpr hv), ih hvs]

/-! ### The flush -/

/-- D0's would-be final group is the engine's (R65). -/
theorem Holds.finalGroup_eq {s : State} {acc bits : Nat} (hs : s.Inv) (h : Holds s acc bits) :
    (acc <<< (toBits s.mode - bits)) &&& (2 ^ toBits s.mode - 1) = (finalGroup s).toNat := by
  obtain ⟨rfl, hleft⟩ := h
  have hsplit : 2 ^ toBits s.mode = 2 ^ s.bits.toNat * 2 ^ (toBits s.mode - s.bits.toNat) := by
    rw [← Nat.pow_add, Nat.add_sub_cancel' (Nat.le_of_lt hs)]
  rw [finalGroup_toNat s hs, Nat.and_two_pow_sub_one_eq_mod, Nat.shiftLeft_eq, hsplit, Nat.mul_mod_mul_right, ← hleft,
    leftover]

theorem nonzeroLeftover_iff_toNat (s : State) : nonzeroLeftover s = true ↔ (finalGroup s).toNat ≠ 0 := by
  rw [nonzeroLeftover_iff, Ne, ← BitVec.toNat_inj]
  rfl

/-- The flush answers as D0's "After consuming input" goes on from the groups emitted (R60, R65). -/
theorem Holds.flush_eq {s : State} {acc bits : Nat} (hs : s.Inv) (h : Holds s acc bits) (p : Padding) (gs : List Nat) :
    ∃ t r, exec (.rgFlush p) s = .next t ∧ t.responses = s.responses ++ [r] ∧
      (Reference.finish (fromBits s.mode) (toBits s.mode) p.bit gs acc bits).mapError errorOfConvert =
        (hostResult [r]).map (gs ++ ·) := by
  have hfinal := h.finalGroup_eq hs
  obtain ⟨rfl, -⟩ := h
  cases p with
  | pad =>
    refine ⟨_, _, exec_rgFlush_pad s, rfl, ?_⟩
    unfold Reference.finish padGroups
    rw [if_pos (show Padding.pad.bit = true from rfl), hfinal]
    split
    · rfl
    · exact congrArg Except.ok (List.append_nil gs).symm
  | strict =>
    unfold Reference.finish
    rw [if_neg (by decide), hfinal]
    cases hmany : tooManyLeftover s with
    | true =>
      refine ⟨_, _, exec_rgFlush_of_tooMany hmany, rfl, ?_⟩
      rw [if_pos ((tooManyLeftover_iff s).mp hmany), setWidth_eq_ofNat]
      rfl
    | false =>
      rw [if_neg (of_decide_eq_false hmany)]
      cases hnonzero : nonzeroLeftover s with
      | true =>
        refine ⟨_, _, exec_rgFlush_of_nonzero hmany hnonzero, rfl, ?_⟩
        rw [if_pos ((nonzeroLeftover_iff_toNat s).mp hnonzero), setWidth_eq_ofNat]
        rfl
      | false =>
        refine ⟨_, _, exec_rgFlush_of_zero hmany hnonzero, rfl, ?_⟩
        rw [if_neg (mt (nonzeroLeftover_iff_toNat s).mpr (Bool.not_eq_true _ ▸ hnonzero))]
        exact congrArg Except.ok (List.append_nil gs).symm

/-! ### The whole sequence -/

theorem startSession_holds (s : State) (d : Direction) : Holds (s.startSession d) 0 0 := ⟨rfl, rfl⟩

/-- Values in range: the pushes emit the groups of D0's loop, and the flush answers as D0 finishes (R66). -/
theorem convert_of_inRange {d : Direction} {vs : List Byte} (hvs : ∀ v ∈ vs, v.toNat < 2 ^ fromBits d) (p : Padding)
    (s : State) : ∃ t rs, run (vs.length + 2) (s.present (Pseudo.convert d p vs).expansion) = .next t ∧
      t.responses = s.responses ++ rs ∧
      hostResult rs =
        (Reference.convert (vs.map BitVec.toNat) (fromBits d) (toBits d) p.bit).mapError errorOfConvert := by
  obtain ⟨acc, bits, hend, hconsume⟩ := (startSession_holds s d).consume_eq (startSession_inv s d) hvs
  obtain ⟨t, r, hflush, hr, hfinish⟩ := hend.flush_eq (appendAll_inv (startSession_inv s d) vs) p
    ((groupsOfPushes (s.startSession d) vs).map BitVec.toNat)
  rw [State.appendAll_mode, State.startSession_mode] at hfinish
  rw [State.startSession_mode] at hconsume
  refine ⟨t, .ok .nothing :: pushResponses (s.startSession d) vs ++ [r], run_convert hvs hflush, ?_, ?_⟩
  · rw [hr, session_responses, List.append_assoc]
  · rw [hostResult_append (List.forall_mem_cons.mpr ⟨rfl, pushResponses_err⟩), List.flatMap_cons, pushResponses_outs,
      Reference.convert, hconsume]
    exact hfinish.symm

theorem convert_expansion_length (d : Direction) (p : Padding) (vs : List Byte) :
    (Pseudo.convert d p vs).expansion.length = vs.length + 2 := by
  simp [Pseudo.expansion]

/-- A value out of range behind values in range is the first error of the sequence, whatever follows it (R75). -/
theorem convert_of_bad {d : Direction} {vs : List Byte} {bad : Byte} (hvs : ∀ v ∈ vs, v.toNat < 2 ^ fromBits d)
    (hbad : 2 ^ fromBits d ≤ bad.toNat) (rest : List Byte) (p : Padding) (s : State) :
    ∃ t rs, run ((vs ++ bad :: rest).length + 2)
        (s.present (Pseudo.convert d p (vs ++ bad :: rest)).expansion) = .next t ∧
      t.responses = s.responses ++ rs ∧ hostResult rs = .error (errorOfConvert (.range bad.toNat)) := by
  have hlist : (Pseudo.convert d p (vs ++ bad :: rest)).expansion =
      .rgInit d :: vs.map .rgPush ++ .rgPush bad :: (rest.map .rgPush ++ [.rgFlush p]) := by
    rw [Pseudo.expansion, List.map_append, List.cons_append, List.append_assoc]
    rfl
  have hsession : run (Instr.rgInit d :: vs.map .rgPush).length (s.present (.rgInit d :: vs.map .rgPush)) =
      .next ((s.startSession d).appendAll vs) := by
    rw [List.length_cons, List.length_map]
    exact run_session hvs s
  have hfail := exec_rgPush_of_exceeds (s := (s.startSession d).appendAll vs) (v := bad)
    (by rwa [State.appendAll_mode])
  obtain ⟨t, rs, hrun, hrs⟩ :=
    run_failing hsession (State.appendAll_inputs _ _) hfail (rest.map .rgPush ++ [.rgFlush p])
  rw [← hlist, convert_expansion_length] at hrun
  refine ⟨t, .ok .nothing :: pushResponses (s.startSession d) vs ++ .error .range (bad.setWidth 16) :: rs, hrun, ?_, ?_⟩
  · rw [hrs, session_responses, List.append_assoc]
  · rw [hostResult_append_error (List.forall_mem_cons.mpr ⟨rfl, pushResponses_err⟩), setWidth_eq_ofNat]
    rfl

/-- D0's `convert` fails at the first value out of range. -/
theorem reference_convert_of_bad {d : Direction} {vs : List Byte} {bad : Byte}
    (hvs : ∀ v ∈ vs, v.toNat < 2 ^ fromBits d) (hbad : 2 ^ fromBits d ≤ bad.toNat) (rest : List Byte) (p : Padding) :
    Reference.convert ((vs ++ bad :: rest).map BitVec.toNat) (fromBits d) (toBits d) p.bit =
      .error (.range bad.toNat) := by
  rw [Reference.convert, List.map_append, List.map_cons, consume_of_bad (List.forall_mem_map.mpr hvs) hbad]

/-- Values are all in range, or there is a first one that is not. -/
theorem inRange_or_firstBad (d : Direction) (vs : List Byte) : (∀ v ∈ vs, v.toNat < 2 ^ fromBits d) ∨
    ∃ pre bad rest, vs = pre ++ bad :: rest ∧ (∀ v ∈ pre, v.toNat < 2 ^ fromBits d) ∧
      2 ^ fromBits d ≤ bad.toNat := by
  cases hfind : vs.find? fun v => decide (2 ^ fromBits d ≤ v.toNat) with
  | none => exact .inl fun v hv => by simpa using List.find?_eq_none.mp hfind v hv
  | some bad =>
    obtain ⟨hbad, pre, rest, rfl, hpre⟩ := List.find?_eq_some_iff_append.mp hfind
    exact .inr ⟨pre, bad, rest, rfl, fun v hv => by simpa using hpre v hv, of_decide_eq_true hbad⟩

/-- The result of `.CONVERT` is that of D0's `convert`, outputs or error. -/
theorem convert_refines (d : Direction) (p : Padding) (vs : List Byte) (s : State) :
    ∃ t rs, run (vs.length + 2) (s.present (Pseudo.convert d p vs).expansion) = .next t ∧
      t.responses = s.responses ++ rs ∧
      hostResult rs =
        (Reference.convert (vs.map BitVec.toNat) (fromBits d) (toBits d) p.bit).mapError errorOfConvert := by
  rcases inRange_or_firstBad d vs with hvs | ⟨pre, bad, rest, rfl, hpre, hbad⟩
  · exact convert_of_inRange hvs p s
  · rw [reference_convert_of_bad hpre hbad rest p]
    exact convert_of_bad hpre hbad rest p s

/-- A list of `RG` commands leaves `CHK`, which the other unit's commands cannot see, and what is presented behind. -/
theorem run_regrouper_frame {is : List Instr} (h : ∀ i ∈ is, i.side = .regrouper) {s t : State}
    (hrun : run is.length (s.present is) = .next t) : t.chk = s.chk ∧ t.inputs = s.inputs := by
  obtain ⟨t', rs, hrun', -, -, hunit⟩ := interleavingIsInvisibleToEachUnit is s
  obtain ⟨u, hu, -, hchk, -⟩ := hunit .checksum
  obtain ⟨t'', -, hrun'', -, hin⟩ := run_answers is s
  obtain rfl := next_inj (hrun'.symm.trans hrun)
  obtain rfl := next_inj (hrun''.symm.trans hrun)
  have hnone : (is.filter fun i => i.side = .checksum) = [] :=
    List.filter_eq_nil_iff.mpr fun i hi => by rw [h i hi]; decide
  rw [hnone] at hu
  obtain rfl := next_inj hu
  exact ⟨(hchk rfl).symm, hin⟩

theorem convert_regrouper (d : Direction) (p : Padding) (vs : List Byte) :
    ∀ i ∈ (Pseudo.convert d p vs).expansion, i.side = .regrouper := by
  refine List.forall_mem_cons.mpr ⟨rfl, List.forall_mem_append.mpr ⟨?_, List.forall_mem_singleton.mpr rfl⟩⟩
  exact List.forall_mem_map.mpr fun _ _ => rfl

/-! ### The lengths -/

theorem groupsOfPushes_length {d : Direction} {vs : List Byte} (hvs : ∀ v ∈ vs, v.toNat < 2 ^ fromBits d) (s : State) :
    (groupsOfPushes (s.startSession d) vs).length = vs.length * fromBits d / toBits d := by
  rw [(session_div_mod hvs s).1, ← List.length_map (f := BitVec.toNat), ← pushResponses_outs, List.length_flatMap]
  rfl

theorem finish_length {fw tw acc bits : Nat} {p : Padding} {gs outs : List Nat} :
    Reference.finish fw tw p.bit gs acc bits = .ok outs → outs.length = gs.length + match p with
      | .pad => if 0 < bits then 1 else 0
      | .strict => 0 := by
  intro h
  cases p with
  | pad =>
    rw [Reference.finish, if_pos (show Padding.pad.bit = true from rfl)] at h
    split at h <;> cases h
    · rw [if_pos ‹_›, List.length_append, List.length_singleton]
    · rw [if_neg ‹_›, Nat.add_zero]
  | strict =>
    rw [Reference.finish, if_neg (show ¬ Padding.strict.bit = true by decide)] at h
    split at h
    · cases h
    · split at h <;> cases h
      rfl

/-- A group for the bits left over rounds the quotient up. -/
theorem div_add_finalGroup (d : Direction) (n : Nat) :
    n / toBits d + (if 0 < n % toBits d then 1 else 0) = (n + toBits d - 1) / toBits d := by
  cases d with
  | eightToFive => rw [show toBits .eightToFive = 5 from rfl]; split <;> omega
  | fiveToEight => rw [show toBits .fiveToEight = 8 from rfl]; split <;> omega

theorem convert_length {d : Direction} {p : Padding} {vs : List Byte} {outs : List Nat} :
    Reference.convert (vs.map BitVec.toNat) (fromBits d) (toBits d) p.bit = .ok outs → outs.length = match p with
      | .pad => (vs.length * fromBits d + toBits d - 1) / toBits d
      | .strict => vs.length * fromBits d / toBits d := by
  intro h
  rcases inRange_or_firstBad d vs with hvs | ⟨pre, bad, rest, rfl, hpre, hbad⟩
  · obtain ⟨acc, bits, ⟨hbits, -⟩, hconsume⟩ :=
      (startSession_holds .reset d).consume_eq (startSession_inv .reset d) hvs
    rw [State.startSession_mode] at hconsume
    rw [Reference.convert, hconsume] at h
    rw [finish_length h, List.length_map, groupsOfPushes_length hvs, ← hbits, ← (session_div_mod hvs .reset).2]
    cases p with
    | pad => exact div_add_finalGroup d _
    | strict => rfl
  · rw [reference_convert_of_bad hpre hbad rest p] at h
    cases h

/-- Settles O47: the refinement, the frame of a list of `RG` commands, and the length of D0's outputs. -/
theorem convertSequenceComputesConvert : Obligations.ConvertSequenceComputesConvert := by
  refine ⟨fun _ _ _ => rfl, fun d p vs s => ?_⟩
  obtain ⟨t, rs, hrun, hresp, hres⟩ := convert_refines d p vs s
  obtain ⟨hchk, hin⟩ := run_regrouper_frame (convert_regrouper d p vs) (convert_expansion_length d p vs ▸ hrun)
  refine ⟨t, rs, hrun, hresp, hchk, hin, hres.trans ?_, fun _ => convert_length⟩
  cases Reference.convert (vs.map BitVec.toNat) (fromBits d) (toBits d) p.bit <;> rfl

end Sys2Proof.Machine
end

section
/-! PROOFS. The failures (60_exceptions.md R93 to R96). The reasons a word is answered with an error are said once, as
`WordFails`: a word fails for one of them and writes no register, or it succeeds. -/

namespace Sys2Proof.Machine

/-! ### No fault and no refusal -/

theorem step_takeCommand {s : State} {w : Word} {rest : List Input} (h : s.inputs = .command w :: rest) :
    step s = takeCommand w (s.withInputs rest) := by
  unfold step
  rw [h]
  rfl

/-- Settles O12: idleness and a reset have a next state, and so has the answer to a word. -/
theorem everyStepAnswersNext : Obligations.EveryStepAnswersNext := by
  intro s
  rcases hin : s.inputs with _ | ⟨w | _, rest⟩
  · exact ⟨s, step_idle hin⟩
  · obtain ⟨t, _, ht, -, -⟩ := takeCommand_answers w (s.withInputs rest)
    exact ⟨t, (step_takeCommand hin).trans ht⟩
  · exact ⟨_, step_reset hin⟩

/-! ### Why a word fails -/

/-- R94, R96: the reasons for which `s` answers the word `w` with an error, each with its `ERRVAL`. -/
inductive WordFails (s : State) (w : Word) : ErrorCode → BitVec 16 → Prop where
  | illegal {why : Illegal} (hd : decode w = .illegal why) : WordFails s w .illegal w
  | symbol {v : Byte} (hd : decode w = .command (.ckSym v)) (hv : exceedsSymbol v = true) :
    WordFails s w .symbol (BitVec.ofNat 16 v.toNat)
  | range {v : Byte} (hd : decode w = .command (.rgPush v)) (hv : exceedsRange s v = true) :
    WordFails s w .range (BitVec.ofNat 16 v.toNat)
  | padZero (hd : decode w = .command (.rgFlush .strict)) (hmany : tooManyLeftover s = true) :
    WordFails s w .padZero (BitVec.ofNat 16 s.bits.toNat)
  | padNonzero (hd : decode w = .command (.rgFlush .strict)) (hfew : tooManyLeftover s = false)
    (hg : nonzeroLeftover s = true) : WordFails s w .padNonzero (BitVec.ofNat 16 (finalGroup s).toNat)

theorem takeCommand_command {w : Word} {i : Instr} (h : decode w = .command i) (s : State) :
    takeCommand w s = exec i s := by
  simp only [takeCommand, h]

/-- R95: a word that fails has no effect but its error response. -/
theorem WordFails.takeCommand_eq {s : State} {w : Word} {code : ErrorCode} {val : BitVec 16}
    (h : WordFails s w code val) : takeCommand w s = .next (s.fail code val) := by
  cases h with
  | illegal hd => exact takeCommand_illegal hd s
  | symbol hd hv => rw [takeCommand_command hd, exec_ckSym_of_exceeds hv, setWidth_eq_ofNat]
  | range hd hv => rw [takeCommand_command hd, exec_rgPush_of_exceeds (of_decide_eq_true hv), setWidth_eq_ofNat]
  | padZero hd hmany => rw [takeCommand_command hd, exec_rgFlush_of_tooMany hmany, setWidth_eq_ofNat]
  | padNonzero hd hfew hg => rw [takeCommand_command hd, exec_rgFlush_of_nonzero hfew hg, setWidth_eq_ofNat]

/-- There is no other reason to fail: a word for which none of them holds is answered `ok()`. -/
theorem wordFails_or_ok (w : Word) (s : State) : (∃ code val, WordFails s w code val) ∨
    ∃ t out, takeCommand w s = .next t ∧ t.responses = s.responses ++ [.ok out] := by
  cases hd : decode w with
  | illegal why => exact .inl ⟨_, _, .illegal hd⟩
  | command i =>
    rw [takeCommand_command hd]
    cases i with
    | ckSym v =>
      by_cases hv : v.toNat ≤ 31
      · exact .inr ⟨_, _, exec_ckSym_of_le hv s, rfl⟩
      · exact .inl ⟨_, _, .symbol hd ((exceedsSymbol_iff v).mpr (Nat.lt_of_not_le hv))⟩
    | rgPush v =>
      by_cases hv : v.toNat < 2 ^ fromBits s.mode
      · exact .inr ⟨_, _, exec_rgPush_of_lt hv, append_responses_eq s v⟩
      · exact .inl ⟨_, _, .range hd (decide_eq_true (Nat.le_of_not_lt hv))⟩
    | rgFlush p =>
      cases p with
      | pad => exact .inr ⟨_, _, exec_rgFlush_pad s, rfl⟩
      | strict =>
        cases hmany : tooManyLeftover s with
        | true => exact .inl ⟨_, _, .padZero hd hmany⟩
        | false =>
          cases hg : nonzeroLeftover s with
          | true => exact .inl ⟨_, _, .padNonzero hd hmany hg⟩
          | false => exact .inr ⟨_, _, exec_rgFlush_of_zero hmany hg, rfl⟩
    | _ => exact .inr ⟨_, _, rfl, rfl⟩

/-- A word is answered with an error exactly if it fails with that code and value. -/
theorem error_iff_wordFails {w : Word} {s t : State} {r : Response} {code : ErrorCode} {val : BitVec 16}
    (h : takeCommand w s = .next t) (hr : t.responses = s.responses ++ [r]) :
    r = .error code val ↔ WordFails s w code val := by
  have answer {u : State} {r' : Response} (hu : takeCommand w s = .next u) (hr' : u.responses = s.responses ++ [r']) :
      r = r' := by
    obtain rfl := next_inj (hu.symm.trans h)
    exact (responses_eq_append_iff hr).mp hr'
  constructor
  · rintro rfl
    rcases wordFails_or_ok w s with ⟨code', val', hf⟩ | ⟨u, out, hu, hok⟩
    · cases answer hf.takeCommand_eq rfl
      exact hf
    · cases answer hu hok
  · exact fun hf => answer hf.takeCommand_eq rfl

/-! ### A failure changes nothing -/

/-- A step that answers an error took a word, and the error response is all it adds. -/
theorem eq_fail_of_step_error {s t : State} {code : ErrorCode} {val : BitVec 16} (h : step s = .next t)
    (hr : t.responses = s.responses ++ [.error code val]) : ∃ rest, t = (s.withInputs rest).fail code val := by
  rcases hin : s.inputs with _ | ⟨w | _, rest⟩
  · obtain rfl := next_inj ((step_idle hin).symm.trans h)
    exact absurd hr (by simp)
  · have hw : takeCommand w (s.withInputs rest) = .next t := (step_takeCommand hin).symm.trans h
    have hf : WordFails (s.withInputs rest) w code val := (error_iff_wordFails hw hr).mp rfl
    exact ⟨rest, next_inj (hw.symm.trans hf.takeCommand_eq)⟩
  · obtain rfl := next_inj ((step_reset hin).symm.trans h)
    exact absurd hr (by simp)

/-- R42 for an error: `N` is 0, so the four bits below `ERR` are. -/
theorem Response.error_word (code : ErrorCode) (val : BitVec 16) :
    (Response.error code val).word = code.code ++ 0#4 ++ val.setWidth 32 := by
  have hzeros : code.code ++ 0#1 ++ 0#3 = code.code ++ 0#4 := by cases code <;> rfl
  exact congrArg (· ++ val.setWidth 32) hzeros

/-- Settles O36: the next state is the state before with the error response delivered. -/
theorem failureChangesNothing : Obligations.FailureChangesNothing := by
  intro s t code val h hr
  obtain ⟨rest, rfl⟩ := eq_fail_of_step_error h hr
  exact ⟨rfl, rfl, rfl, rfl, rfl, rfl, rfl, rfl, Response.error_word code val⟩

/-! ### The conditions as the spec has them -/

/-- R39: the illegal words are those that match no row of R36. -/
theorem exists_illegal_iff_no_row {w : Word} :
    (∃ why, decode w = .illegal why) ↔ ∀ row ∈ opcodeTable, w &&& row.mask ≠ row.matchBits := by
  constructor
  · rintro ⟨why, hd⟩ row hrow hmatch
    obtain ⟨i, -, rfl⟩ := exists_encode_of_matches hrow hmatch
    cases (decode_encode i).symm.trans hd
  · intro hno
    cases hd : decode w with
    | illegal why => exact ⟨why, rfl⟩
    | command i =>
      rw [← encode_of_decode hd] at hno
      exact absurd (encode_and_mask i) (hno _ i.row_mem_opcodeTable)

/-- R96: under R14 only 5-to-8 leaves as many bits as an input value has, and then 5, 6 or 7. -/
theorem bits_mem_of_fromBits_le {s : State} (hs : s.Inv) (h : fromBits s.mode ≤ s.bits.toNat) :
    s.bits.toNat ∈ [5, 6, 7] := by
  have hlt : s.bits.toNat < toBits s.mode := hs
  cases hm : s.mode with
  | eightToFive =>
    rw [hm] at hlt h
    exact absurd (h.trans_lt hlt) (by decide)
  | fiveToEight =>
    rw [hm] at hlt h
    have h5 : 5 ≤ s.bits.toNat := h
    have h8 : s.bits.toNat < 8 := hlt
    simp only [List.mem_cons, List.not_mem_nil, or_false]
    omega

/-- Settles O37: under R14 each disjunct is one reason of `WordFails`, its condition as R96 has it. -/
theorem errorsArisePreciselyWhenStated : Obligations.ErrorsArisePreciselyWhenStated := by
  refine ⟨⟨rfl, rfl, rfl, rfl, rfl⟩, fun _ => rfl, fun w s hs => ?_⟩
  obtain ⟨t, r, ht, -, hr⟩ := takeCommand_answers w s
  refine ⟨t, r, ht, hr, fun code val => (error_iff_wordFails ht hr).trans ?_⟩
  have hgroup : (s.acc.toNat <<< (toBits s.mode - s.bits.toNat)) &&& (2 ^ toBits s.mode - 1) = (finalGroup s).toNat :=
    Holds.finalGroup_eq hs ⟨rfl, rfl⟩
  rw [hgroup, ← exists_illegal_iff_no_row]
  constructor
  · intro hf
    cases hf with
    | illegal hd => exact .inl ⟨rfl, ⟨_, hd⟩, rfl⟩
    | symbol hd hv => exact .inr (.inl ⟨rfl, _, hd, (exceedsSymbol_iff _).mp hv, rfl⟩)
    | range hd hv =>
      obtain ⟨hmode, h31⟩ := (exceedsRange_iff s _).mp hv
      exact .inr (.inr (.inl ⟨rfl, _, hd, hmode, h31, rfl⟩))
    | padZero hd hmany =>
      have hle := (tooManyLeftover_iff s).mp hmany
      exact .inr (.inr (.inr (.inl ⟨rfl, hd, hle, bits_mem_of_fromBits_le hs hle, rfl⟩)))
    | padNonzero hd hfew hg =>
      have hlt := Nat.lt_of_not_le (of_decide_eq_false hfew)
      exact .inr (.inr (.inr (.inr ⟨rfl, hd, hlt, (nonzeroLeftover_iff_toNat s).mp hg, rfl⟩)))
  · rintro (⟨rfl, ⟨why, hd⟩, rfl⟩ | ⟨rfl, v, hd, h31, rfl⟩ | ⟨rfl, v, hd, hmode, h31, rfl⟩ |
      ⟨rfl, hd, hle, -, rfl⟩ | ⟨rfl, hd, hlt, hne, rfl⟩)
    · exact .illegal hd
    · exact .symbol hd ((exceedsSymbol_iff v).mpr h31)
    · exact .range hd ((exceedsRange_iff s v).mpr ⟨hmode, h31⟩)
    · exact .padZero hd ((tooManyLeftover_iff s).mpr hle)
    · exact .padNonzero hd (tooManyLeftover_of_lt hlt) ((nonzeroLeftover_iff_toNat s).mpr hne)

end Sys2Proof.Machine
end

section
/-! PROOFS. Reset and the writes of `MODE` (70_reset_and_hazards.md R105, R106, R112). -/

namespace Sys2Proof.Machine

/-- The one command that can change `MODE`, and what it puts there (R62). -/
theorem eq_rgInit_of_exec_mode_ne {i : Instr} {s t : State} (h : exec i s = .next t) (hne : t.mode ≠ s.mode) :
    i = .rgInit t.mode := by
  obtain ⟨-, -, -, -, -, honly⟩ := rgInitStartsSession
  exact honly i s t h hne

/-- Settles O38: of all a step can do, idleness and an illegal word leave `MODE`, and the one command that does not is
`RG.INIT`. -/
theorem modeChangesOnlyByInitOrReset : Obligations.ModeChangesOnlyByInitOrReset := by
  intro s t h hne
  rcases step_cases h with ⟨-, rfl⟩ | ⟨rest, hin, rfl⟩ | ⟨w, rest, why, -, -, rfl⟩ | ⟨w, rest, i, hin, hd, hex⟩
  · exact absurd rfl hne
  · exact .inl ⟨rest, hin⟩
  · exact absurd rfl hne
  · obtain rfl := eq_rgInit_of_exec_mode_ne hex hne
    exact .inr ⟨w, rest, hin, hd⟩

/-- Settles O1: the field lemmas of the reset state. -/
theorem resetStateIsDefined : Obligations.ResetStateIsDefined :=
  ⟨State.reset_chk, State.reset_acc, State.reset_bits, State.reset_mode, State.reset_responses⟩

/-- Settles O2: `takeReset` writes the registers of the reset state and keeps what the ports hold. -/
theorem resetEventSetsRegisters : Obligations.ResetEventSetsRegisters :=
  fun _ _ hin => step_reset hin

end Sys2Proof.Machine
end
